-- ==== Sys2Proof/Word.lean ====
section
/-! DEFINITION. The machine's word: one byte (00_scope.md R4). -/

namespace Sys2Proof

/-- A memory cell, a register, the program counter, the flags byte (`CELL_BITS` = 8, 00_scope.md R3). -/
abbrev Byte := BitVec 8

/-- The index of one of the eight registers (`NREGS` = 8, 00_scope.md R3). -/
abbrev RegIndex := Fin 8

end Sys2Proof
end

