-- ==== Sys2Proof/Config.lean ====
section
/-! DEFINITION. The implementation parameters of 00_scope.md R3, as a type, and the constraints R3 puts on them
(their values stand in Machine/Params.lean); and the free values, which have no value anywhere. -/

namespace Sys2Proof

/-! ### The opcode bytes -/

/-- The four opcode bytes that the source states and that are fixed (30_encoding.md R58, ground "source"). -/
def opcHlt : Byte := 0x01
def opcPrn : Byte := 0x47
def opcLdi : Byte := 0x82
def opcAdd : Byte := 0xA0

/-- The 28 opcode bytes that the source does not state: the last row of 00_scope.md R3, each under its mnemonic (D2). -/
structure OpcodeBytes where
  ret : Byte
  iret : Byte
  push : Byte
  pop : Byte
  pra : Byte
  call : Byte
  jmp : Byte
  jeq : Byte
  jne : Byte
  jgt : Byte
  jlt : Byte
  jle : Byte
  jge : Byte
  inc : Byte
  dec : Byte
  not : Byte
  ld : Byte
  st : Byte
  sub : Byte
  mul : Byte
  div : Byte
  mod : Byte
  cmp : Byte
  and : Byte
  or : Byte
  xor : Byte
  shl : Byte
  shr : Byte
  deriving DecidableEq, Repr

/-- The named parameters of 00_scope.md R3 that are values (the sizes that R3 fixes are in the types). -/
structure Config where
  /-- `SP_RESET` -/
  spReset : Byte
  /-- `PC_RESET` -/
  pcReset : Byte
  /-- `IE_RESET` -/
  ieReset : Bool
  /-- `TIMER_LINE` -/
  timerLine : Nat
  /-- `INPUT_LINE` -/
  inputLine : Nat
  /-- `TIMER_PERIOD`, in the unit in which an input sample's clock counts. -/
  timerPeriod : Nat
  /-- `VECTOR_BASE` -/
  vectorBase : Nat
  /-- `KEY_ADDR` -/
  keyAddr : Byte
  /-- `FL_E`, the position of the Equal bit in FL. -/
  flE : Nat
  /-- `FL_G`, the position of the Greater bit in FL. -/
  flG : Nat
  /-- `FL_L`, the position of the Less bit in FL. -/
  flL : Nat
  /-- `OPC_ADDI` -/
  opcAddi : Byte
  /-- The other opcode bytes that the source does not state. -/
  opcodes : OpcodeBytes
  deriving DecidableEq, Repr

/-- The 33 opcode bytes in the order of the rows of 30_encoding.md R58, with the operand count and the sets-PC bit of the
row. -/
def Config.opcodeRows (c : Config) : List (Byte × Nat × Bool) :=
  [ (opcHlt, 0, false), (c.opcodes.ret, 0, true), (c.opcodes.iret, 0, true), (c.opcodes.push, 1, false),
    (c.opcodes.pop, 1, false), (opcPrn, 1, false), (c.opcodes.pra, 1, false) ] ++
  [ (c.opcodes.call, 1, true), (c.opcodes.jmp, 1, true), (c.opcodes.jeq, 1, true), (c.opcodes.jne, 1, true),
    (c.opcodes.jgt, 1, true), (c.opcodes.jlt, 1, true), (c.opcodes.jle, 1, true), (c.opcodes.jge, 1, true) ] ++
  [ (c.opcodes.inc, 1, false), (c.opcodes.dec, 1, false), (c.opcodes.not, 1, false), (opcLdi, 2, false),
    (c.opcodes.ld, 2, false), (c.opcodes.st, 2, false) ] ++
  [ (opcAdd, 2, false), (c.opcodes.sub, 2, false), (c.opcodes.mul, 2, false), (c.opcodes.div, 2, false),
    (c.opcodes.mod, 2, false), (c.opcodes.cmp, 2, false), (c.opcodes.and, 2, false), (c.opcodes.or, 2, false),
    (c.opcodes.xor, 2, false), (c.opcodes.shl, 2, false), (c.opcodes.shr, 2, false), (c.opcAddi, 2, false) ]

/-- What 00_scope.md R3 requires of the open parameters, and the checks of 30_encoding.md R58 on the opcode bytes: bits 7:6
are the operand count, bit 4 is the sets-PC bit, all are distinct. `KEY_ADDR <= 255` holds by its type. -/
def Config.valid (c : Config) : Bool :=
  decide (c.vectorBase + 7 ≤ 255) &&
  decide (c.flE < 8) && decide (c.flG < 8) && decide (c.flL < 8) &&
  decide (c.flE ≠ c.flG) && decide (c.flE ≠ c.flL) && decide (c.flG ≠ c.flL) &&
  c.opcodeRows.all (fun (b, n, spc) => decide ((b.extractLsb' 6 2).toNat = n) && b.getLsbD 4 == spc) &&
  decide (c.opcodeRows.map Prod.fst).Nodup &&
  decide (0 < c.timerPeriod)

/-! ### Free values: what the outside gives in the cycles for which no sample is listed (log 18) -/

/-- The input byte, if any, of the sample with the given number: an endless sequence that nothing constrains
(60_exceptions.md R188; 93_implementation_defined.md W2). -/
opaque Config.freeKey : Nat → Option Byte

/-- The clock at the sample with the given number: an endless sequence that nothing constrains, so that the ticks are a free
sequence of Booleans (60_exceptions.md R186, R187; 93_implementation_defined.md W1). -/
opaque Config.freeNow : Nat → Nat

end Sys2Proof
end

