-- ==== Sys2Proof/Machine/Params.lean ====
section
/-! DEFINITION. The values of the parameters of 00_scope.md R3. -/

namespace Sys2Proof.Machine

/-- 00_scope.md R3, column "value". `spReset`, `pcReset`, the two lines and the one-second period are the source's.
PRESUMED (the spec's own choice from general knowledge of the LS-8): `ieReset` (log 5), `vectorBase` and `keyAddr`
(log 6), `flE`, `flG`, `flL` (log 4), `opcAddi` (log 2), `opcodes` (log 1).
DESIGN CHOICE: the clock counts milliseconds (log 19). -/
def cfg : Config where
  spReset := 0xF4
  pcReset := 0x00
  ieReset := true
  timerLine := 0
  inputLine := 1
  timerPeriod := 1000
  vectorBase := 0xF8
  keyAddr := 0xF4
  flE := 0
  flG := 1
  flL := 2
  opcAddi := 0xAE
  opcodes :=
    { ret := 0x11, iret := 0x13, push := 0x45, pop := 0x46, pra := 0x48,
      call := 0x50, jmp := 0x54, jeq := 0x55, jne := 0x56, jgt := 0x57, jlt := 0x58, jle := 0x59, jge := 0x5A,
      inc := 0x65, dec := 0x66, not := 0x69, ld := 0x83, st := 0x84,
      sub := 0xA1, mul := 0xA2, div := 0xA3, mod := 0xA4, cmp := 0xA7,
      and := 0xA8, or := 0xAA, xor := 0xAB, shl := 0xAC, shr := 0xAD }

end Sys2Proof.Machine
end

