-- ==== Sys2Proof/Syntax.lean ====
section
/-! DEFINITION. The instructions: one constructor per row of spec/opcode_table.json (30_encoding.md R58). -/

namespace Sys2Proof

/-- An instruction with its operand bytes as they stand in memory (30_encoding.md R53). A register operand is the WHOLE
byte (R55): a value above 7 is a term of this type, is not well-formed, and raises `OutOfRange` when it executes
(40_execution_cycle.md R76; log 33). The first operand of RR and RI is `opA` at `pc+1`, the second `opB` at `pc+2` (R57). -/
inductive Instr where
  -- format Z
  | hlt
  | ret
  | iret
  -- format R
  | push (a : Byte)
  | pop (a : Byte)
  | prn (a : Byte)
  | pra (a : Byte)
  | call (a : Byte)
  | jmp (a : Byte)
  | jeq (a : Byte)
  | jne (a : Byte)
  | jgt (a : Byte)
  | jlt (a : Byte)
  | jle (a : Byte)
  | jge (a : Byte)
  | inc (a : Byte)
  | dec (a : Byte)
  | not (a : Byte)
  -- format RI and RR
  | ldi (a imm : Byte)
  | ld (a b : Byte)
  | st (a b : Byte)
  | add (a b : Byte)
  | sub (a b : Byte)
  | mul (a b : Byte)
  | div (a b : Byte)
  | mod (a b : Byte)
  | cmp (a b : Byte)
  | and (a b : Byte)
  | or (a b : Byte)
  | xor (a b : Byte)
  | shl (a b : Byte)
  | shr (a b : Byte)
  | addi (a imm : Byte)
  deriving DecidableEq, Repr

end Sys2Proof
end

