-- ==== Sys2Proof/Decode.lean ====
section
/-! DEFINITION. The decoder, total on any bytes and rejecting by name, and the encoder
(30_encoding.md R50 to R62). -/

namespace Sys2Proof

/-- Why a sequence of bytes holds no instruction. -/
inductive DecodeError where
  /-- The first byte is none of the 33 opcodes (30_encoding.md R59): the machine raises `DecodeFailure`. -/
  | unknownOpcode (opcode : Byte)
  /-- The bytes end before the instruction's last operand (or there is none at all). Only the end of memory ends
  them: the machine raises `OutOfRange(OperandFetch)` (40_execution_cycle.md R75). -/
  | truncated
  deriving DecidableEq, Repr

/-- What an opcode stands for: its format (30_encoding.md R53) and the instruction it makes of its operand bytes. -/
inductive Form where
  | z (i : Instr)
  | r (mk : Byte → Instr)
  | rr (mk : Byte → Byte → Instr)
  | ri (mk : Byte → Byte → Instr)

/-- The opcode map, 30_encoding.md R58, in the order of its rows. The bytes are the parameters of 00_scope.md R3: four fixed
ones of the source, the LS-8 assignments (D2, log 1), and `OPC_ADDI` (D3, log 2). -/
def opcodeMap : List (Byte × Form) :=
  [ (opcHlt, .z .hlt), (Machine.cfg.opcodes.ret, .z .ret), (Machine.cfg.opcodes.iret, .z .iret),
    (Machine.cfg.opcodes.push, .r .push), (Machine.cfg.opcodes.pop, .r .pop), (opcPrn, .r .prn),
    (Machine.cfg.opcodes.pra, .r .pra) ] ++
  [ (Machine.cfg.opcodes.call, .r .call), (Machine.cfg.opcodes.jmp, .r .jmp), (Machine.cfg.opcodes.jeq, .r .jeq),
    (Machine.cfg.opcodes.jne, .r .jne), (Machine.cfg.opcodes.jgt, .r .jgt), (Machine.cfg.opcodes.jlt, .r .jlt),
    (Machine.cfg.opcodes.jle, .r .jle), (Machine.cfg.opcodes.jge, .r .jge) ] ++
  [ (Machine.cfg.opcodes.inc, .r .inc), (Machine.cfg.opcodes.dec, .r .dec), (Machine.cfg.opcodes.not, .r .not),
    (opcLdi, .ri .ldi), (Machine.cfg.opcodes.ld, .rr .ld), (Machine.cfg.opcodes.st, .rr .st) ] ++
  [ (opcAdd, .rr .add), (Machine.cfg.opcodes.sub, .rr .sub), (Machine.cfg.opcodes.mul, .rr .mul),
    (Machine.cfg.opcodes.div, .rr .div), (Machine.cfg.opcodes.mod, .rr .mod), (Machine.cfg.opcodes.cmp, .rr .cmp),
    (Machine.cfg.opcodes.and, .rr .and), (Machine.cfg.opcodes.or, .rr .or), (Machine.cfg.opcodes.xor, .rr .xor),
    (Machine.cfg.opcodes.shl, .rr .shl), (Machine.cfg.opcodes.shr, .rr .shr), (Machine.cfg.opcAddi, .ri .addi) ]

/-- The row of a map with the given opcode: all eight bits are compared (30_encoding.md R54). -/
def findForm (ir : Byte) : List (Byte × Form) → Option Form
  | [] => none
  | (op, f) :: rows => if op = ir then some f else findForm ir rows

/-- The lookup of 30_encoding.md R62. -/
def lookupOpcode (ir : Byte) : Option Form := findForm ir opcodeMap

/-- The byte is one of the 33 opcodes. -/
def isOpcode (ir : Byte) : Bool := (lookupOpcode ir).isSome

/-- The operand count `n = ir[7:6]` (30_encoding.md R51, R52). -/
def operandCount (ir : Byte) : Nat := (ir.extractLsb' 6 2).toNat

/-- The sets-PC bit, bit 4 of the opcode (30_encoding.md R51, conflict C1, log 27). -/
def setsPcBit (ir : Byte) : Bool := ir.getLsbD 4

/-- The form applied to the operand bytes that follow the opcode, with the bytes left over. -/
def Form.read : Form → List Byte → Except DecodeError (Instr × List Byte)
  | .z i, rest => .ok (i, rest)
  | .r mk, a :: rest => .ok (mk a, rest)
  | .rr mk, a :: b :: rest => .ok (mk a b, rest)
  | .ri mk, a :: b :: rest => .ok (mk a b, rest)
  | .r _, [] => .error .truncated
  | .rr _, [] => .error .truncated
  | .rr _, [_] => .error .truncated
  | .ri _, [] => .error .truncated
  | .ri _, [_] => .error .truncated

/-- Decoding, 30_encoding.md R62: the instruction at the head of the bytes and the bytes after it. -/
def decode : List Byte → Except DecodeError (Instr × List Byte)
  | [] => .error .truncated
  | ir :: rest =>
    match lookupOpcode ir with
    | none => .error (.unknownOpcode ir)
    | some f => f.read rest

/-- The opcode byte of an instruction, 30_encoding.md R58 read by mnemonic; the same parameters as in `opcodeMap`. -/
def Instr.opcode : Instr → Byte
  | .hlt => opcHlt
  | .ret => Machine.cfg.opcodes.ret
  | .iret => Machine.cfg.opcodes.iret
  | .push _ => Machine.cfg.opcodes.push
  | .pop _ => Machine.cfg.opcodes.pop
  | .prn _ => opcPrn
  | .pra _ => Machine.cfg.opcodes.pra
  | .call _ => Machine.cfg.opcodes.call
  | .jmp _ => Machine.cfg.opcodes.jmp
  | .jeq _ => Machine.cfg.opcodes.jeq
  | .jne _ => Machine.cfg.opcodes.jne
  | .jgt _ => Machine.cfg.opcodes.jgt
  | .jlt _ => Machine.cfg.opcodes.jlt
  | .jle _ => Machine.cfg.opcodes.jle
  | .jge _ => Machine.cfg.opcodes.jge
  | .inc _ => Machine.cfg.opcodes.inc
  | .dec _ => Machine.cfg.opcodes.dec
  | .not _ => Machine.cfg.opcodes.not
  | .ldi _ _ => opcLdi
  | .ld _ _ => Machine.cfg.opcodes.ld
  | .st _ _ => Machine.cfg.opcodes.st
  | .add _ _ => opcAdd
  | .sub _ _ => Machine.cfg.opcodes.sub
  | .mul _ _ => Machine.cfg.opcodes.mul
  | .div _ _ => Machine.cfg.opcodes.div
  | .mod _ _ => Machine.cfg.opcodes.mod
  | .cmp _ _ => Machine.cfg.opcodes.cmp
  | .and _ _ => Machine.cfg.opcodes.and
  | .or _ _ => Machine.cfg.opcodes.or
  | .xor _ _ => Machine.cfg.opcodes.xor
  | .shl _ _ => Machine.cfg.opcodes.shl
  | .shr _ _ => Machine.cfg.opcodes.shr
  | .addi _ _ => Machine.cfg.opcAddi

/-- The operand bytes of an instruction in the order of increasing address (30_encoding.md R50, R57). -/
def Instr.operands : Instr → List Byte
  | .hlt => []
  | .ret => []
  | .iret => []
  | .push a => [a]
  | .pop a => [a]
  | .prn a => [a]
  | .pra a => [a]
  | .call a => [a]
  | .jmp a => [a]
  | .jeq a => [a]
  | .jne a => [a]
  | .jgt a => [a]
  | .jlt a => [a]
  | .jle a => [a]
  | .jge a => [a]
  | .inc a => [a]
  | .dec a => [a]
  | .not a => [a]
  | .ldi a imm => [a, imm]
  | .ld a b => [a, b]
  | .st a b => [a, b]
  | .add a b => [a, b]
  | .sub a b => [a, b]
  | .mul a b => [a, b]
  | .div a b => [a, b]
  | .mod a b => [a, b]
  | .cmp a b => [a, b]
  | .and a b => [a, b]
  | .or a b => [a, b]
  | .xor a b => [a, b]
  | .shl a b => [a, b]
  | .shr a b => [a, b]
  | .addi a imm => [a, imm]

/-- The bytes of an instruction (30_encoding.md R50). -/
def encode (i : Instr) : List Byte := i.opcode :: i.operands

/-- The instructions that a byte image holds one after another, read until the bytes end; `fuel` bounds how many. -/
def decodeAll : Nat → List Byte → Except DecodeError (List Instr)
  | _, [] => .ok []
  | 0, _ :: _ => .error .truncated
  | fuel + 1, b :: bs =>
    match decode (b :: bs) with
    | .error e => .error e
    | .ok (i, rest) =>
      match decodeAll fuel rest with
      | .error e => .error e
      | .ok is => .ok (i :: is)

/-- The bytes of a table word: byte `k` is bits `8k+7 .. 8k`, and the bits above `nbits` are 0. The longest instruction
has three bytes (30_encoding.md R50). -/
def tableWordBytes (nbits w : Nat) : List Byte :=
  let v := w % 2 ^ nbits
  [BitVec.ofNat 8 v, BitVec.ofNat 8 (v / 256), BitVec.ofNat 8 (v / 65536)]

/-- The instruction that the decoder reads from a word of spec/opcode_table.json. -/
def decodeTableWord (nbits w : Nat) : Option Instr :=
  match decode (tableWordBytes nbits w) with
  | .ok (i, _) => some i
  | .error _ => none

end Sys2Proof
end

