-- ==== Sys2Proof/Machine/State.lean ====
section
/-! DEFINITION. The state of the machine (10_state.md), the reasons of its faults, and the state after reset (R27). -/

namespace Sys2Proof.Machine

/-- The three sub-causes of `OutOfRange` (60_exceptions.md R163). -/
inductive RangeCause where
  /-- An operand byte would be read from an address above 255 (40_execution_cycle.md R75). -/
  | operandFetch
  /-- A register operand byte is above 7 (40_execution_cycle.md R76). -/
  | registerIndex
  /-- The successor address is needed and above 255 (40_execution_cycle.md R80). -/
  | nextPc
  deriving DecidableEq, Repr

/-- The fault causes of 60_exceptions.md R160. A fault of this machine is a state change the spec describes in full
(R160, R165), so it is a NEXT state in which `run` records the cause; `Host.Outcome.fault` is answered by no
instruction and by no step (DESIGN CHOICE, log 12). -/
inductive Fault where
  /-- Raised by the cycle when the byte at `pc` is no opcode (R161). Safe: the spec's own fault. -/
  | decodeFailure
  /-- Raised by DIV and MOD when the divisor register holds 0 (R162). Safe: the spec's own fault. -/
  | arithmeticFault
  /-- Raised by any instruction with operands or that needs a successor address (R163). Safe: the spec's fault for what
  the document leaves undefined (D10, D11). -/
  | outOfRange (sub : RangeCause)
  deriving DecidableEq, Repr

/-- Why the model gives no meaning. -/
inductive Refusal where
  /-- Raised by an arm of `exec` whose instruction has no meaning yet. Safe. No arm raises it. -/
  | notModelled (mnemonic : String)
  /-- Raised by `loadImage`, outside any step, for an image longer than memory (70_reset_and_hazards.md R202, D26:
  "a model refuses longer images"). Safe. -/
  | imageTooLong
  deriving DecidableEq, Repr

/-- The run status (10_state.md R21). -/
inductive RunStatus where
  | running
  | halted
  | faulted (cause : Fault) (pc opcode : Byte)
  deriving DecidableEq, Repr

/-- One event of the output stream (10_state.md R24). -/
inductive OutEvent where
  | num (v : Byte)
  | chr (v : Byte)
  deriving DecidableEq, Repr

/-- What one cycle samples at its start: the input byte, if any (10_state.md R23), and the wall-clock time `now`
(60_exceptions.md R186), from which the tick of R25 follows. DESIGN CHOICE (log 18, 19). -/
structure CycleInput where
  key : Option Byte
  now : Nat
  deriving DecidableEq, Repr

/-- Memory: the cells that do not hold 0x00, by rising address. A cell not listed holds 0x00, the reset contents
(10_state.md R27, log 29). -/
abbrev Memory := List Host.Cell

/-- The state tuple at the head of 10_state.md, with the output stream (R24) and, the model's own, the two fields by which
the outside reaches a cycle (log 18). -/
structure State where
  /-- `R0..R7` (R10); `R5` is IM, `R6` is IS, `R7` is SP (R11). -/
  regs : Vector Byte 8
  /-- The program counter (R14). -/
  pc : Byte
  /-- The flags byte (R15). -/
  fl : Byte
  /-- Interrupt enable (R17). -/
  ie : Bool
  /-- `M[0..255]` (20_memory.md R30). -/
  mem : Memory
  /-- The run status (R21). -/
  run : RunStatus
  /-- `t_last`, the time of the timer's last tick (R20). -/
  tLast : Nat
  /-- The events emitted so far, oldest first (R24). -/
  out : List OutEvent
  /-- The samples of the coming cycles, next first. After the last one listed the samples are free, without end
(`State.nextInput`). -/
  inputs : List CycleInput
  /-- How many samples have been taken: the number of the coming one among the free ones. -/
  samples : Nat
  deriving DecidableEq, Repr

/-- The state after reset (10_state.md R27, 70_reset_and_hazards.md R200). `tLast` 0: the clock counts from the reset
(DESIGN CHOICE, log 19). `inputs` empty and `samples` 0: DESIGN CHOICE (log 18); no statement rests on them. -/
def State.reset : State where
  regs := #v[0x00, 0x00, 0x00, 0x00, 0x00, 0x00, 0x00, cfg.spReset]
  pc := cfg.pcReset
  fl := 0x00
  ie := cfg.ieReset
  mem := []
  run := .running
  tLast := 0
  out := []
  inputs := []
  samples := 0

end Sys2Proof.Machine
end

