-- ==== Sys2Proof/Machine/Ops.lean ====
section
/-! DEFINITION. The named operations over memory, registers, stack, inputs and outputs, raising a fault, and entering
an interrupt. -/

namespace Sys2Proof.Machine

/-- What an instruction or a cycle answers. -/
abbrev Result := Host.Outcome State Fault Refusal

/-! ### Memory (20_memory.md) -/

/-- The byte of the cell with the given address; 0x00 where none is listed. -/
def Memory.read : Memory → Nat → Byte
  | [], _ => 0#8
  | (k, v) :: cells, a => if k = a then v else Memory.read cells a

/-- The cells without those of an address. -/
def Memory.erase : Memory → Nat → Memory
  | [], _ => []
  | (k, w) :: cells, a => if k = a then Memory.erase cells a else (k, w) :: Memory.erase cells a

/-- The cells with an entry put before the first one of a higher address. -/
def Memory.insert : Memory → Nat → Byte → Memory
  | [], a, v => [(a, v)]
  | (k, w) :: cells, a, v =>
    if k < a then (k, w) :: Memory.insert cells a v else (a, v) :: (k, w) :: cells

/-- Storing a byte, in rising order of address and listing no zero. -/
def Memory.write (m : Memory) (a : Nat) (v : Byte) : Memory :=
  if v = 0#8 then Memory.erase m a else Memory.insert (Memory.erase m a) a v

/-- The addresses listed lie at `lo` or above and below 256, rise strictly, and hold no zero. -/
def Memory.wfFrom : Nat → Memory → Bool
  | _, [] => true
  | lo, (k, v) :: cells => decide (lo ≤ k) && decide (k < 256) && decide (v ≠ 0#8) && Memory.wfFrom (k + 1) cells

/-- The canonical form: equal memories are equal lists. -/
def Memory.wf (m : Memory) : Bool := Memory.wfFrom 0 m

/-- `MemRead(addr, 1)` (20_memory.md R31). -/
def State.memRead (s : State) (addr : Byte) : Byte := Memory.read s.mem addr.toNat

/-- `MemWrite(addr, 1, v)` (20_memory.md R32). -/
def State.memWrite (s : State) (addr v : Byte) : State := { s with mem := Memory.write s.mem addr.toNat v }

/-- Storing bytes at consecutive addresses from `a` upward, as far as memory goes. -/
def Memory.writeBytes : Memory → Nat → List Byte → Memory
  | m, _, [] => m
  | m, a, v :: vs => Memory.writeBytes (if a < 256 then Memory.write m a v else m) (a + 1) vs

/-! ### Registers (10_state.md R10 to R12) -/

/-- `SP` is `x[7]`. -/
def SP : RegIndex := 7
/-- `IS` is `x[6]`. -/
def IS : RegIndex := 6
/-- `IM` is `x[5]`. -/
def IM : RegIndex := 5

/-- The read `x[i]`. -/
def State.reg (s : State) (i : RegIndex) : Byte := s.regs[i]

/-- The write `x[i] <- v`: any of the eight registers (R12, C8, log 16). -/
def State.setReg (s : State) (i : RegIndex) (v : Byte) : State := { s with regs := s.regs.set i v }

/-- `pc <- target`. -/
def State.setPc (s : State) (target : Byte) : State := { s with pc := target }
/-- `fl <- v`: all eight bits. -/
def State.setFl (s : State) (v : Byte) : State := { s with fl := v }
/-- `ie <- v`. -/
def State.setIe (s : State) (v : Bool) : State := { s with ie := v }
/-- `run <- r`. -/
def State.setRun (s : State) (r : RunStatus) : State := { s with run := r }
/-- `t_last <- t`. -/
def State.setTLast (s : State) (t : Nat) : State := { s with tLast := t }
/-- The samples of the coming cycles. -/
def State.setInputs (s : State) (l : List CycleInput) : State := { s with inputs := l }
/-- The number of the coming sample. -/
def State.setSamples (s : State) (n : Nat) : State := { s with samples := n }

/-- `emit(e)`: the event is appended to the output stream (10_state.md R24). -/
def State.emit (s : State) (e : OutEvent) : State := { s with out := s.out ++ [e] }

/-- `status` (10_state.md R26): the run status, which holds cause, pc and opcode of a fault. -/
def State.status (s : State) : RunStatus := s.run

/-! ### The stack (42_data_movement.md R120, R121) -/

/-- The first half of a push: `SP <- (SP - 1) mod 256` (wrapping, D12, log 10). -/
def State.decSp (s : State) : State := s.setReg SP (s.reg SP - 1)

/-- `push(v)`. -/
def State.push (s : State) (v : Byte) : State := s.decSp.memWrite (s.decSp.reg SP) v

/-- The byte `pop()` results in. -/
def State.top (s : State) : Byte := s.memRead (s.reg SP)

/-- The second half of a pop: `SP <- (SP + 1) mod 256`. -/
def State.incSp (s : State) : State := s.setReg SP (s.reg SP + 1)

/-- `x[i] <- pop()`, the register written before the increment (42_data_movement.md R126). -/
def State.popReg (s : State) (i : RegIndex) : State := (s.setReg i s.top).incSp

/-- `fl <- pop()`. -/
def State.popFl (s : State) : State := (s.setFl s.top).incSp

/-- `pc <- pop()`. -/
def State.popPc (s : State) : State := (s.setPc s.top).incSp

/-! ### Faults (60_exceptions.md R160 to R166) -/

/-- `raise cause`: `run <- FAULTED(cause, pc, ir)` and nothing else, `ir` being the byte at `pc` (R160, R165, log 30). -/
def State.fault (s : State) (c : Fault) : State := s.setRun (.faulted c s.pc (s.memRead s.pc))

/-- A fault is taken: a next state (log 12). -/
def raise (c : Fault) (s : State) : Result := .next (s.fault c)

/-- The cause numbers of 60_exceptions.md R160 (the spec's own numbering, D15). -/
def Fault.code : Fault → Nat
  | .decodeFailure => 1
  | .arithmeticFault => 2
  | .outOfRange _ => 3

/-! ### The poll, step 1 of a cycle (40_execution_cycle.md R71) -/

/-- The byte whose only set bit is that of a line or a flag. -/
def bitMask (i : Nat) : Byte := 1#8 <<< i

/-- What the coming cycle samples: the next sample listed; with none listed, the free one of its number, so that the
sequences of ticks and of input bytes never end (60_exceptions.md R187, R188, log 18). -/
def State.nextInput (s : State) : CycleInput :=
  match s.inputs with
  | [] => { key := Config.freeKey s.samples, now := Config.freeNow s.samples }
  | i :: _ => i

/-- The coming sample is consumed. -/
def State.takeSample (s : State) : State := (s.setInputs s.inputs.tail).setSamples (s.samples + 1)

/-- `tick`: at least a timer period has passed since the last tick (60_exceptions.md R186). -/
def State.tick (s : State) (now : Nat) : Bool := decide (cfg.timerPeriod ≤ now - s.tLast)

/-- The bit of a line is set in IS. -/
def State.raiseLine (s : State) (line : Nat) : State := s.setReg IS (s.reg IS ||| bitMask line)

/-- The input byte: stored at `KEY_ADDR`, line 1 raised (10_state.md R23). -/
def State.pollKey (s : State) : Option Byte → State
  | none => s
  | some b => (s.memWrite cfg.keyAddr b).raiseLine cfg.inputLine

/-- The timer: on a tick line 0 is raised and `t_last` becomes `now` (10_state.md R25, 60_exceptions.md R186). -/
def State.pollTimer (s : State) (now : Nat) : State :=
  if s.tick now then (s.raiseLine cfg.timerLine).setTLast now else s

/-- Step 1: the input before the timer (D25, log 21); the sample is consumed. -/
def State.poll (s : State) : State :=
  (s.takeSample.pollKey s.nextInput.key).pollTimer s.nextInput.now

/-! ### Interrupts (60_exceptions.md R170 to R182) -/

/-- The pending lines, `IM & IS` (R171). -/
def State.pending (s : State) : Byte := s.reg IM &&& s.reg IS

/-- The least set bit of a byte (R177): the first of the lines 0..7 whose bit is set. -/
def lowestLine (m : Byte) : Option Nat := [0, 1, 2, 3, 4, 5, 6, 7].find? fun i => m.getLsbD i

/-- The line that step 2 services, if any: `ie = 1` and the lowest pending line (40_execution_cycle.md R72). -/
def State.serviceable (s : State) : Option Nat := if s.ie then lowestLine s.pending else none

/-- The address of a line's vector, `VECTOR_BASE + line` (20_memory.md R38). -/
def vectorAddr (line : Nat) : Byte := BitVec.ofNat 8 (cfg.vectorBase + line)

/-- The saving of `pc`, `fl`, `R0..R6` in this order (R179; C2, D20, log 17). A push changes none of them. -/
def State.pushFrame (s : State) : State :=
  ((((((((s.push s.pc).push s.fl).push (s.reg 0)).push (s.reg 1)).push (s.reg 2)).push (s.reg 3)).push
    (s.reg 4)).push (s.reg 5)).push (s.reg 6)

/-- The serviced line's status bit cleared. -/
def State.clearLine (s : State) (line : Nat) : State := s.setReg IS (s.reg IS &&& ~~~(bitMask line))

/-- The pc taken from a line's vector. -/
def State.jumpVector (s : State) (line : Nat) : State := s.setPc (s.memRead (vectorAddr line))

/-- `InterruptEntry(line)` (R179): `ie` cleared, the status bit cleared, the frame pushed, the pc from the vector, in this
order. -/
def State.interruptEntry (s : State) (line : Nat) : State :=
  (((s.setIe false).clearLine line).pushFrame).jumpVector line

/-- The return from an interrupt: `R6..R0`, `fl`, `pc` are popped, in this order, and `ie <- 1` (44_system.md R148). -/
def State.interruptReturn (s : State) : State :=
  (((((((((s.popReg 6).popReg 5).popReg 4).popReg 3).popReg 2).popReg 1).popReg 0).popFl).popPc).setIe true

/-! ### Reset and load, outside any cycle (10_state.md R22, R26; log 32) -/

/-- The reset line asserted at time `now`: every piece of state at its reset value, `t_last` the time of the reset
(70_reset_and_hazards.md R200). The samples, listed and free, belong to the outside and stay (log 28). -/
def State.assertReset (s : State) (now : Nat) : State := { State.reset with tLast := now, inputs := s.inputs, samples := s.samples }

/-- `load(bytes)` (70_reset_and_hazards.md R202): the image is written from address 0 upward. An image longer than memory
is refused (D26, log 22). -/
def State.loadImage (s : State) (image : List Byte) : Result :=
  if image.length ≤ 256 then .next { s with mem := Memory.writeBytes s.mem 0 image } else .refused .imageTooLong

end Sys2Proof.Machine
end

