-- ==== Sys2Proof/Machine/Flags.lean ====
section
/-! DEFINITION. The flags: what CMP writes (41_alu.md R109) and what the conditional jumps test (43_control_transfer.md
R134). Bit positions are parameters (10_state.md R15, D5, log 4). -/

namespace Sys2Proof.Machine

/-- The flags byte after a comparison of `x` with `y`, unsigned: one of E, G, L set and every other bit clear (R109). -/
def compareFlags (x y : Byte) : Byte :=
  if x = y then bitMask cfg.flE
  else if y.toNat < x.toNat then bitMask cfg.flG
  else bitMask cfg.flL

/-- The Equal bit. -/
def flagE (fl : Byte) : Bool := fl.getLsbD cfg.flE
/-- The Greater bit. -/
def flagG (fl : Byte) : Bool := fl.getLsbD cfg.flG
/-- The Less bit. -/
def flagL (fl : Byte) : Bool := fl.getLsbD cfg.flL

/-- The conditions of the table in R134 (JNE, JLE, JGE: D17, log 14). -/
def condEQ (fl : Byte) : Bool := flagE fl
def condNE (fl : Byte) : Bool := !flagE fl
def condGT (fl : Byte) : Bool := flagG fl
def condLT (fl : Byte) : Bool := flagL fl
def condLE (fl : Byte) : Bool := flagL fl || flagE fl
def condGE (fl : Byte) : Bool := flagG fl || flagE fl

end Sys2Proof.Machine
end

