-- ==== Sys2Proof/Machine/Operands.lean ====
section
/-! DEFINITION. The operand forms with the pre-checks of 40_execution_cycle.md R74, in its order, and the advance of
step 5 (R78). Each check takes what to do when it passes; the first that fails raises its fault and nothing else
happens (60_exceptions.md R165, D13, D14, log 11). -/

namespace Sys2Proof.Machine

/-- Check 1: the operand bytes lie at 255 or below (R75, log 9; repeated here, log 31). -/
def checkOperands (n : Nat) (s : State) (k : Result) : Result :=
  if 255 < s.pc.toNat + n then raise (.outOfRange .operandFetch) s else k

/-- The register an operand byte names: the byte is not masked (10_state.md R13, D10, log 8). -/
def regIndex? (o : Byte) : Option RegIndex := if h : o.toNat < 8 then some ⟨o.toNat, h⟩ else none

/-- The operand byte that names a register (30_encoding.md R55). -/
def regByte (i : RegIndex) : Byte := BitVec.ofNat 8 i.val

/-- Checks 2 and 3: the operand byte names a register (R76). -/
def checkReg (o : Byte) (s : State) (k : RegIndex → Result) : Result :=
  match regIndex? o with
  | none => raise (.outOfRange .registerIndex) s
  | some i => k i

/-- Check 4: the divisor is not 0 (41_alu.md R105, R106). -/
def checkDivisor (d : Byte) (s : State) (k : Result) : Result :=
  if d = 0#8 then raise .arithmeticFault s else k

/-- Check 5: the successor address `next = pc + 1 + n` is at most 255 (R80); it does not wrap (D11, log 9). -/
def checkNext (n : Nat) (s : State) (k : Byte → Result) : Result :=
  if 255 < s.pc.toNat + 1 + n then raise (.outOfRange .nextPc) s else k (BitVec.ofNat 8 (s.pc.toNat + 1 + n))

/-- Format R: one register operand (30_encoding.md R53). -/
def formR (a : Byte) (s : State) (k : RegIndex → Result) : Result :=
  checkOperands 1 s (checkReg a s k)

/-- Format RR: two register operands, `opA` checked before `opB`. -/
def formRR (a b : Byte) (s : State) (k : RegIndex → RegIndex → Result) : Result :=
  checkOperands 2 s (checkReg a s fun i => checkReg b s fun j => k i j)

/-- Format RI: a register operand and an immediate, which is never checked (30_encoding.md R56). -/
def formRI (a : Byte) (s : State) (k : RegIndex → Result) : Result :=
  checkOperands 2 s (checkReg a s k)

/-- Step 4 and step 5 of an instruction that does not set the pc itself: its effect, then `pc <- pc + 1 + n` (R78). -/
def advance (n : Nat) (s : State) (effect : State → State) : Result :=
  checkNext n s fun next => .next ((effect s).setPc next)

end Sys2Proof.Machine
end

