-- ==== Sys2Proof/Machine/Alu.lean ====
section
/-! DEFINITION. The ALU instructions (41_alu.md R100 to R116): the exact result on natural numbers, reduced modulo 256
(R100; for ADD and MUL conflict C4, D9, log 7). -/

namespace Sys2Proof.Machine

/-! ### The computations -/

def aluAdd (x y : Byte) : Byte := BitVec.ofNat 8 (x.toNat + y.toNat)
def aluSub (x y : Byte) : Byte := BitVec.ofNat 8 (x.toNat + 256 - y.toNat)
def aluMul (x y : Byte) : Byte := BitVec.ofNat 8 (x.toNat * y.toNat)
/-- Floor of the unsigned quotient (R105, D27, log 24); used with a divisor other than 0. -/
def aluDiv (x y : Byte) : Byte := BitVec.ofNat 8 (x.toNat / y.toNat)
/-- Unsigned remainder (R106, D27, log 24); used with a divisor other than 0. -/
def aluMod (x y : Byte) : Byte := BitVec.ofNat 8 (x.toNat % y.toNat)
def aluAnd (x y : Byte) : Byte := x &&& y
def aluOr (x y : Byte) : Byte := x ||| y
def aluXor (x y : Byte) : Byte := x ^^^ y
/-- The count is the whole of `y`, not taken modulo 8 (R114, D16, log 13). -/
def aluShl (x y : Byte) : Byte := BitVec.ofNat 8 (x.toNat <<< y.toNat)
/-- Logical, the count as for SHL (R115, D16, log 13). -/
def aluShr (x y : Byte) : Byte := BitVec.ofNat 8 (x.toNat >>> y.toNat)
def aluInc (x : Byte) : Byte := BitVec.ofNat 8 (x.toNat + 1)
def aluDec (x : Byte) : Byte := BitVec.ofNat 8 (x.toNat + 255)
def aluNot (x : Byte) : Byte := BitVec.ofNat 8 (255 - x.toNat)

/-! ### The shapes (R101): destination and first source `a`, sources read before the write -/

def aluRR (f : Byte → Byte → Byte) (a b : Byte) (s : State) : Result :=
  formRR a b s fun i j => advance 2 s fun s => s.setReg i (f (s.reg i) (s.reg j))

def aluDivRR (f : Byte → Byte → Byte) (a b : Byte) (s : State) : Result :=
  formRR a b s fun i j => checkDivisor (s.reg j) s (advance 2 s fun s => s.setReg i (f (s.reg i) (s.reg j)))

def aluR (f : Byte → Byte) (a : Byte) (s : State) : Result :=
  formR a s fun i => advance 1 s fun s => s.setReg i (f (s.reg i))

def aluRI (f : Byte → Byte → Byte) (a imm : Byte) (s : State) : Result :=
  formRI a s fun i => advance 2 s fun s => s.setReg i (f (s.reg i) imm)

/-! ### The instructions -/

/-- ADD a, b (R102). -/
def execAdd (a b : Byte) (s : State) : Result := aluRR aluAdd a b s
/-- SUB a, b (R103). -/
def execSub (a b : Byte) (s : State) : Result := aluRR aluSub a b s
/-- MUL a, b (R104). -/
def execMul (a b : Byte) (s : State) : Result := aluRR aluMul a b s
/-- DIV a, b (R105). -/
def execDiv (a b : Byte) (s : State) : Result := aluDivRR aluDiv a b s
/-- MOD a, b (R106). -/
def execMod (a b : Byte) (s : State) : Result := aluDivRR aluMod a b s
/-- INC a (R107). -/
def execInc (a : Byte) (s : State) : Result := aluR aluInc a s
/-- DEC a (R108). -/
def execDec (a : Byte) (s : State) : Result := aluR aluDec a s
/-- CMP a, b (R109): writes `fl` and no register. -/
def execCmp (a b : Byte) (s : State) : Result :=
  formRR a b s fun i j => advance 2 s fun s => s.setFl (compareFlags (s.reg i) (s.reg j))
/-- AND a, b (R110). -/
def execAnd (a b : Byte) (s : State) : Result := aluRR aluAnd a b s
/-- NOT a (R111). -/
def execNot (a : Byte) (s : State) : Result := aluR aluNot a s
/-- OR a, b (R112). -/
def execOr (a b : Byte) (s : State) : Result := aluRR aluOr a b s
/-- XOR a, b (R113). -/
def execXor (a b : Byte) (s : State) : Result := aluRR aluXor a b s
/-- SHL a, b (R114). -/
def execShl (a b : Byte) (s : State) : Result := aluRR aluShl a b s
/-- SHR a, b (R115). -/
def execShr (a b : Byte) (s : State) : Result := aluRR aluShr a b s
/-- ADDI a, imm8 (R116). -/
def execAddi (a imm : Byte) (s : State) : Result := aluRI aluAdd a imm s

end Sys2Proof.Machine
end

