-- ==== Sys2Proof/Machine/Control.lean ====
section
/-! DEFINITION. Control transfer: CALL, RET, JMP and the conditional jumps (43_control_transfer.md R130 to R140). Each
writes the pc itself on every path (40_execution_cycle.md R79). -/

namespace Sys2Proof.Machine

/-- CALL a (R131): the successor address is pushed; the target is read after the decrement (D18, log 15). -/
def execCall (a : Byte) (s : State) : Result :=
  formR a s fun i => checkNext 1 s fun next => .next ((s.push next).setPc (s.decSp.reg i))

/-- RET (R132): `pc <- pop()`. -/
def execRet (s : State) : Result := .next s.popPc

/-- JMP a (R133): it needs no successor address (40_execution_cycle.md R80). -/
def execJmp (a : Byte) (s : State) : Result :=
  formR a s fun i => .next (s.setPc (s.reg i))

/-- The template of the conditional jumps (R134): the successor address is needed only when the jump is not taken. -/
def jumpIf (cond : Byte → Bool) (a : Byte) (s : State) : Result :=
  formR a s fun i =>
    if cond s.fl then .next (s.setPc (s.reg i)) else checkNext 1 s fun next => .next (s.setPc next)

/-- JEQ a (R135). -/
def execJeq (a : Byte) (s : State) : Result := jumpIf condEQ a s
/-- JNE a (R136). -/
def execJne (a : Byte) (s : State) : Result := jumpIf condNE a s
/-- JGT a (R137). -/
def execJgt (a : Byte) (s : State) : Result := jumpIf condGT a s
/-- JLT a (R138). -/
def execJlt (a : Byte) (s : State) : Result := jumpIf condLT a s
/-- JLE a (R139). -/
def execJle (a : Byte) (s : State) : Result := jumpIf condLE a s
/-- JGE a (R140). -/
def execJge (a : Byte) (s : State) : Result := jumpIf condGE a s

end Sys2Proof.Machine
end

