-- ==== Sys2Proof/Machine/Data.lean ====
section
/-! DEFINITION. Data movement: LDI, LD, ST, PUSH, POP (42_data_movement.md R122 to R126). -/

namespace Sys2Proof.Machine

/-- LDI a, imm8 (R122). -/
def execLdi (a imm : Byte) (s : State) : Result :=
  formRI a s fun i => advance 2 s fun s => s.setReg i imm

/-- LD a, b (R123; operand roles D24, log 3). -/
def execLd (a b : Byte) (s : State) : Result :=
  formRR a b s fun i j => advance 2 s fun s => s.setReg i (s.memRead (s.reg j))

/-- ST a, b (R124): the first operand is the address (D24, log 3). -/
def execSt (a b : Byte) (s : State) : Result :=
  formRR a b s fun i j => advance 2 s fun s => s.memWrite (s.reg i) (s.reg j)

/-- PUSH a (R125): the register is read after the decrement, which matters for R7 (D18, log 15). -/
def execPush (a : Byte) (s : State) : Result :=
  formR a s fun i => advance 1 s fun s => s.push (s.decSp.reg i)

/-- POP a (R126): the register is written before the increment, which matters for R7 (D18, log 15). -/
def execPop (a : Byte) (s : State) : Result :=
  formR a s fun i => advance 1 s fun s => s.popReg i

end Sys2Proof.Machine
end

