-- ==== Sys2Proof/Machine/System.lean ====
section
/-! DEFINITION. System instructions: HLT, PRN, PRA, IRET (44_system.md R145 to R148). -/

namespace Sys2Proof.Machine

/-- HLT (R145): the pc is not advanced (conflict C7). -/
def execHlt (s : State) : Result := .next (s.setRun .halted)

/-- PRN a (R146). -/
def execPrn (a : Byte) (s : State) : Result :=
  formR a s fun i => advance 1 s fun s => s.emit (.num (s.reg i))

/-- PRA a (R147). -/
def execPra (a : Byte) (s : State) : Result :=
  formR a s fun i => advance 1 s fun s => s.emit (.chr (s.reg i))

/-- IRET (R148): legal anywhere (D30, log 26). -/
def execIret (s : State) : Result := .next s.interruptReturn

end Sys2Proof.Machine
end

