-- ==== Sys2Proof/Machine/Cycle.lean ====
section
/-! DEFINITION. The cycle (40_execution_cycle.md R70): poll, interrupt check, fetch and decode, then the instruction. -/

namespace Sys2Proof.Machine

/-- The bytes an instruction at `pc` can have: those at `pc`, `pc+1`, `pc+2` that exist. No wrap-around (R75). -/
def State.fetchBytes (s : State) : List Byte :=
  s.memRead s.pc ::
    (if s.pc.toNat + 1 ≤ 255 then
      s.memRead (s.pc + 1) :: (if s.pc.toNat + 2 ≤ 255 then [s.memRead (s.pc + 2)] else [])
    else [])

/-- Steps 3 to 5 (R73 to R80). -/
def fetchExecute (s : State) : Result :=
  match decode s.fetchBytes with
  | .ok (i, _) => exec i s
  | .error (.unknownOpcode _) => raise .decodeFailure s
  | .error .truncated => raise (.outOfRange .operandFetch) s

/-- Steps 2 to 5 (R72): an interrupt entry, or an instruction. -/
def checkAndExecute (s : State) : Result :=
  match s.serviceable with
  | some line => .next (s.interruptEntry line)
  | none => fetchExecute s

/-- What the machine does in one cycle (R70). A machine that is not running does nothing (R81, 10_state.md R21). -/
def cycle (s : State) : Result :=
  match s.run with
  | .running => checkAndExecute s.poll
  | .halted => .next s
  | .faulted _ _ _ => .next s

/-- The sample of the coming cycle made known: the one listed, or a quiet one (no input byte, no time passed since the last
tick) listed where it would be a free one. -/
def State.settleSample (s : State) : State :=
  match s.inputs with
  | [] => s.setInputs [{ key := none, now := s.tLast }]
  | _ :: _ => s

/-- The sample of the coming cycle with no input byte. -/
def dropNextKey : List CycleInput → List CycleInput
  | [] => []
  | i :: rest => { i with key := none } :: rest

/-- The input byte of the coming cycle would be stored into one of the three bytes at `pc`. -/
def State.keyHitsFetch (s : State) : Bool :=
  s.nextInput.key.isSome && decide (s.pc.toNat ≤ cfg.keyAddr.toNat) && decide (cfg.keyAddr.toNat ≤ s.pc.toNat + 2)

/-- The instruction bytes stored at `pc`, and the machine made such that its next cycle runs them: running; its sample known,
with no input byte written over them; `ie` clear only if that cycle would otherwise be an interrupt entry (log 22). -/
def State.placeInstruction (s : State) (bytes : List Byte) : State :=
  let s := { s with mem := Memory.writeBytes s.mem s.pc.toNat bytes, run := .running }
  let s := s.settleSample
  let s := if s.keyHitsFetch then s.setInputs (dropNextKey s.inputs) else s
  if s.poll.serviceable.isSome then s.setIe false else s

end Sys2Proof.Machine
end

