-- ==== Sys2Proof/Machine/Step.lean ====
section
/-! DEFINITION. One step of the machine is one cycle. -/

namespace Sys2Proof.Machine

/-- One step (40_execution_cycle.md R70, R81). It always answers a next state. -/
def step (s : State) : Host.Outcome State Fault Refusal := cycle s

/-- The instruction of a word of spec/opcode_table.json, placed so that the very next step runs it (log 22). -/
def State.withFetchWord (s : State) (nbits w : Nat) : State := s.placeInstruction (tableWordBytes nbits w)

end Sys2Proof.Machine
end

