-- ==== Sys2Proof/WellFormed.lean ====
section
/-! DEFINITION. Which instruction terms are well-formed: every register operand names a register
(10_state.md R13, 30_encoding.md R55). An immediate is never checked (30_encoding.md R56). -/

namespace Sys2Proof

/-- A register operand byte names one of `R0..R7`. -/
def regOperandOk (o : Byte) : Bool := decide (o.toNat < 8)

/-- Every register operand of the instruction names a register. -/
def Instr.wellFormed : Instr → Bool
  | .hlt => true
  | .ret => true
  | .iret => true
  | .push a => regOperandOk a
  | .pop a => regOperandOk a
  | .prn a => regOperandOk a
  | .pra a => regOperandOk a
  | .call a => regOperandOk a
  | .jmp a => regOperandOk a
  | .jeq a => regOperandOk a
  | .jne a => regOperandOk a
  | .jgt a => regOperandOk a
  | .jlt a => regOperandOk a
  | .jle a => regOperandOk a
  | .jge a => regOperandOk a
  | .inc a => regOperandOk a
  | .dec a => regOperandOk a
  | .not a => regOperandOk a
  | .ldi a _ => regOperandOk a
  | .ld a b => regOperandOk a && regOperandOk b
  | .st a b => regOperandOk a && regOperandOk b
  | .add a b => regOperandOk a && regOperandOk b
  | .sub a b => regOperandOk a && regOperandOk b
  | .mul a b => regOperandOk a && regOperandOk b
  | .div a b => regOperandOk a && regOperandOk b
  | .mod a b => regOperandOk a && regOperandOk b
  | .cmp a b => regOperandOk a && regOperandOk b
  | .and a b => regOperandOk a && regOperandOk b
  | .or a b => regOperandOk a && regOperandOk b
  | .xor a b => regOperandOk a && regOperandOk b
  | .shl a b => regOperandOk a && regOperandOk b
  | .shr a b => regOperandOk a && regOperandOk b
  | .addi a _ => regOperandOk a

end Sys2Proof
end

