-- ==== Sys2Proof/Safety.lean ====
section
/-! DEFINITION. What counts as a well-kept state, and the terms the statements are made in. -/

namespace Sys2Proof.Machine

/-- The operand byte of the register an instruction writes explicitly (10_state.md R12). -/
def destination : Instr → Option Byte
  | .hlt => none
  | .ret => none
  | .iret => none
  | .push _ => none
  | .pop a => some a
  | .prn _ => none
  | .pra _ => none
  | .call _ => none
  | .jmp _ => none
  | .jeq _ => none
  | .jne _ => none
  | .jgt _ => none
  | .jlt _ => none
  | .jle _ => none
  | .jge _ => none
  | .inc a => some a
  | .dec a => some a
  | .not a => some a
  | .ldi a _ => some a
  | .ld a _ => some a
  | .st _ _ => none
  | .add a _ => some a
  | .sub a _ => some a
  | .mul a _ => some a
  | .div a _ => some a
  | .mod a _ => some a
  | .cmp _ _ => none
  | .and a _ => some a
  | .or a _ => some a
  | .xor a _ => some a
  | .shl a _ => some a
  | .shr a _ => some a
  | .addi a _ => some a

/-- An instruction that moves the stack pointer whatever its operands are (10_state.md R12, last row). -/
def movesStack (i : Instr) : Prop :=
  (∃ a, i = .push a) ∨ (∃ a, i = .pop a) ∨ (∃ a, i = .call a) ∨ i = .ret ∨ i = .iret

/-- An instruction that stores to memory (20_memory.md R33). -/
def storesToMemory (i : Instr) : Prop :=
  (∃ a b, i = .st a b) ∨ (∃ a, i = .push a) ∨ (∃ a, i = .call a)

/-- A conditional jump with the condition of 43_control_transfer.md R134 false in `s`, in the bits of 10_state.md R15
(log 4, log 14). -/
def jumpNotTaken (i : Instr) (s : State) : Prop :=
  (∃ a, i = .jeq a ∧ s.fl.getLsbD 0 = false) ∨
  (∃ a, i = .jne a ∧ s.fl.getLsbD 0 = true) ∨
  (∃ a, i = .jgt a ∧ s.fl.getLsbD 1 = false) ∨
  (∃ a, i = .jlt a ∧ s.fl.getLsbD 2 = false) ∨
  (∃ a, i = .jle a ∧ s.fl.getLsbD 2 = false ∧ s.fl.getLsbD 0 = false) ∨
  (∃ a, i = .jge a ∧ s.fl.getLsbD 1 = false ∧ s.fl.getLsbD 0 = false)

/-- The instruction needs its successor address (40_execution_cycle.md R80). -/
def needsNext (i : Instr) (s : State) : Prop :=
  (setsPcBit i.opcode = false ∧ i ≠ .hlt) ∨ (∃ a, i = .call a) ∨ jumpNotTaken i s

/-- The instruction is a DIV or MOD whose divisor register holds 0 (41_alu.md R105, R106). -/
def dividesByZero (i : Instr) (s : State) : Prop :=
  ∃ a, ∃ j : RegIndex, (i = .div a (regByte j) ∨ i = .mod a (regByte j)) ∧ s.reg j = 0#8

/-- The instruction that stands at the pc, all its bytes in memory. -/
def State.standsOn (s : State) (i : Instr) : Prop := ∃ rest, decode s.fetchBytes = .ok (i, rest)

/-- The fault is the one that the instruction at the pc raises: the first condition that holds in the order of
60_exceptions.md R178, so the table of R164 row by row. An immediate is no register operand (`wellFormed`), and a successor
address is missed only by an instruction that needs it. -/
def Fault.applies (c : Fault) (s : State) : Prop :=
  match c with
  | .decodeFailure => isOpcode (s.memRead s.pc) = false
  | .outOfRange .operandFetch => isOpcode (s.memRead s.pc) = true ∧ 255 < s.pc.toNat + operandCount (s.memRead s.pc)
  | .outOfRange .registerIndex => ∃ i, s.standsOn i ∧ i.wellFormed = false
  | .arithmeticFault => ∃ i, s.standsOn i ∧ i.wellFormed = true ∧ dividesByZero i s
  | .outOfRange .nextPc => ∃ i, s.standsOn i ∧ i.wellFormed = true ∧ ¬ dividesByZero i s ∧
      s.pc.toNat + operandCount i.opcode = 255 ∧ needsNext i s

/-- A stopped machine stands on the instruction that stopped it: HALTED on a HLT (44_system.md R145), FAULTED on the
recorded pc and opcode with a cause that applies there (60_exceptions.md R165). -/
def State.stopExplained (s : State) : Prop :=
  match s.run with
  | .running => True
  | .halted => s.memRead s.pc = opcHlt
  | .faulted c p o => p = s.pc ∧ o = s.memRead s.pc ∧ c.applies s

/-- The invariant of the model: memory in canonical form, and a stop explained. -/
def State.inv (s : State) : Prop := Memory.wf s.mem = true ∧ s.stopExplained

/-- A run that has not faulted (93_implementation_defined.md U6: FAULTED refutes a claim of normal termination). -/
def State.notFaulted (s : State) : Bool :=
  match s.run with
  | .running => true
  | .halted => true
  | .faulted _ _ _ => false

end Sys2Proof.Machine
end

