-- ==== Sys2Proof/Certificates/Slice0/Obligations.lean ====
section
/-! DEFINITION. The statements for the provers. In them `regByte i` is the operand byte that names register `Ri`, so a
statement over all `i : RegIndex` covers every register, R5, R6 and R7 among them; what a byte above 7 does is
`RegisterIndexAboveSevenFaults`. Register 5 is IM, 6 is IS, 7 is SP (10_state.md R11). -/

open Sys2Proof Sys2Proof.Machine

/-! ### Encoding -/

/-- DECODING IS RIGHT on written-out words, one of each format and class: the four opcode bytes of the source's worked
program, and words whose opcode byte is from general knowledge (30_encoding.md R58; D2, D3, log 1, log 2). -/
def Obligations.WrittenWordsDecode : Prop :=
  ∀ rest : List Byte,
    decode ([0b10000010#8, 0x00#8, 0x08#8] ++ rest) = .ok (.ldi 0 8, rest) ∧
    decode ([0b10100000#8, 0x00#8, 0x01#8] ++ rest) = .ok (.add 0 1, rest) ∧
    decode ([0b01000111#8, 0x00#8] ++ rest) = .ok (.prn 0, rest) ∧
    decode ([0b00000001#8] ++ rest) = .ok (.hlt, rest) ∧
    decode ([0b00010011#8] ++ rest) = .ok (.iret, rest) ∧
    decode ([0b10000100#8, 0x00#8, 0x01#8] ++ rest) = .ok (.st 0 1, rest) ∧
    decode ([0b01010110#8, 0x03#8] ++ rest) = .ok (.jne 3, rest) ∧
    decode ([0b10101110#8, 0x02#8, 0xFF#8] ++ rest) = .ok (.addi 2 0xFF, rest)

/-- DECODE AND ENCODE AGREE, both ways: the bytes of any instruction, with every operand byte at every value and whatever
follows, decode to it; and bytes that decode to an instruction are exactly its bytes. -/
def Obligations.DecodeAndEncodeAreInverse : Prop :=
  (∀ (i : Instr) (rest : List Byte), decode (encode i ++ rest) = .ok (i, rest)) ∧
  (∀ (bytes : List Byte) (i : Instr) (rest : List Byte), decode bytes = .ok (i, rest) → bytes = encode i ++ rest)

/-- A program image laid out from its instructions is read back as those instructions, in order. -/
def Obligations.ProgramImageReadsBack : Prop :=
  ∀ is : List Instr, decodeAll is.length (is.flatMap encode) = .ok is

/-- The decoder rejects exactly the bytes outside the 33 of 30_encoding.md R58 (the byte values: D2, D3, log 1, log 2)
and says which byte it was; an instruction cut short is rejected as such. -/
def Obligations.DecoderRejectsByName : Prop :=
  (∀ (ir : Byte) (rest : List Byte),
    decode (ir :: rest) = .error (.unknownOpcode ir) ↔
      ir ∉ [0x01#8, 0x11#8, 0x13#8, 0x45#8, 0x46#8, 0x47#8, 0x48#8, 0x50#8, 0x54#8, 0x55#8, 0x56#8, 0x57#8, 0x58#8,
        0x59#8, 0x5A#8, 0x65#8, 0x66#8, 0x69#8, 0x82#8, 0x83#8, 0x84#8, 0xA0#8, 0xA1#8, 0xA2#8, 0xA3#8, 0xA4#8, 0xA7#8,
        0xA8#8, 0xAA#8, 0xAB#8, 0xAC#8, 0xAD#8, 0xAE#8]) ∧
  (∀ (i : Instr) (k : Nat), k < (encode i).length → decode ((encode i).take k) = .error .truncated)

/-! ### Reset and load -/

/-- What reset leaves (10_state.md R27), and what asserting the reset line does to a machine in any state. `ie = 1` is the
spec's own decision D6 (log 5), `fl = 0` its resolution D28 (log 25); the clock's origin is the model's (log 19). -/
def Obligations.ResetValues : Prop :=
  ∀ (s : State) (now : Nat),
    (∀ r : RegIndex, (s.assertReset now).reg r = if r = 7 then 0xF4#8 else 0x00#8) ∧
    (s.assertReset now).pc = 0x00#8 ∧ (s.assertReset now).fl = 0x00#8 ∧ (s.assertReset now).ie = true ∧
    (∀ a : Byte, (s.assertReset now).memRead a = 0x00#8) ∧ (s.assertReset now).run = .running ∧
    (s.assertReset now).tLast = now ∧ (s.assertReset now).out = [] ∧ (s.assertReset now).inputs = s.inputs ∧
    (s.assertReset now).samples = s.samples ∧
    State.reset.assertReset 0 = State.reset

/-- The first cycle after reset with no image loaded stops with DecodeFailure(0, 0x00), whatever is sampled, listed or free: zero-filled
memory is no run of NOPs (30_encoding.md R60, D4, log 3), and no line is enabled. -/
def Obligations.EmptyMemoryStopsAtOnce : Prop :=
  ∀ (l : List CycleInput) (n : Nat), ∃ t, step ((State.reset.setInputs l).setSamples n) = .next t ∧
    t.run = .faulted .decodeFailure 0x00#8 0x00#8 ∧ t.pc = 0x00#8

/-- The loader (70_reset_and_hazards.md R202): an image of at most 256 bytes is stored from address 0 upward and nothing
else changes; a longer image is refused (D26, log 22). -/
def Obligations.LoaderFillsMemoryFromZero : Prop :=
  ∀ (s : State) (image : List Byte),
    (image.length ≤ 256 → ∃ t, s.loadImage image = .next t ∧
      (∀ a : Byte, t.memRead a = if h : a.toNat < image.length then image[a.toNat] else s.memRead a) ∧
      (∀ r, t.reg r = s.reg r) ∧ t.pc = s.pc ∧ t.fl = s.fl ∧ t.ie = s.ie ∧ t.run = s.run ∧ t.tLast = s.tLast ∧
      t.out = s.out ∧ t.inputs = s.inputs ∧ t.samples = s.samples) ∧
    (256 < image.length → s.loadImage image = .refused .imageTooLong)

/-! ### Memory and registers -/

/-- `MemRead` and `MemWrite` (20_memory.md R31, R32): a write sets its own cell, for every address and every value,
changes no other cell and nothing else, and every later read sees it. -/
def Obligations.MemoryReadAfterWrite : Prop :=
  ∀ (s : State) (addr v : Byte),
    (∀ a : Byte, (s.memWrite addr v).memRead a = if a = addr then v else s.memRead a) ∧
    (s.memWrite addr v).regs = s.regs ∧ (s.memWrite addr v).pc = s.pc ∧ (s.memWrite addr v).fl = s.fl ∧
    (s.memWrite addr v).ie = s.ie ∧ (s.memWrite addr v).run = s.run ∧ (s.memWrite addr v).tLast = s.tLast ∧
    (s.memWrite addr v).out = s.out ∧ (s.memWrite addr v).inputs = s.inputs ∧ (s.memWrite addr v).samples = s.samples

/-- The model's memory form is canonical: well-formed memories that read alike at every address are equal, and a write
keeps the form. -/
def Obligations.CanonicalMemory : Prop :=
  (∀ m m' : Memory, Memory.wf m = true → Memory.wf m' = true →
    (∀ a : Byte, Memory.read m a.toNat = Memory.read m' a.toNat) → m = m') ∧
  (∀ (s : State) (addr v : Byte), Memory.wf s.mem = true → Memory.wf (s.memWrite addr v).mem = true)

/-- The register file (10_state.md R10): all eight registers are readable and writable storage, none is hardwired, banked
or shadowed. -/
def Obligations.EightPlainRegisters : Prop :=
  ∀ (s : State) (i : RegIndex) (v : Byte),
    (∀ k : RegIndex, (s.setReg i v).reg k = if k = i then v else s.reg k) ∧
    (s.setReg i v).mem = s.mem ∧ (s.setReg i v).pc = s.pc ∧ (s.setReg i v).fl = s.fl ∧ (s.setReg i v).ie = s.ie

/-! ### Results of the instructions. Each says that the instruction completes and gives the whole next state: what is not
written in it is unchanged, `pc + 2` and `pc + 3` do not wrap under the hypothesis. -/

/-- ADD, SUB, MUL, ADDI: the exact result modulo 256 (41_alu.md R100, R102, R103, R104, R116; masking of ADD and MUL: C4,
D9, log 7). -/
def Obligations.ArithmeticResults : Prop :=
  ∀ (s : State) (i j : RegIndex) (imm : Byte), s.pc.toNat + 3 ≤ 255 →
    exec (.add (regByte i) (regByte j)) s =
      .next ((s.setReg i (BitVec.ofNat 8 (((s.reg i).toNat + (s.reg j).toNat) % 256))).setPc (s.pc + 3)) ∧
    exec (.sub (regByte i) (regByte j)) s =
      .next ((s.setReg i (BitVec.ofInt 8 (((s.reg i).toNat : Int) - (s.reg j).toNat))).setPc (s.pc + 3)) ∧
    exec (.mul (regByte i) (regByte j)) s =
      .next ((s.setReg i (BitVec.ofNat 8 (((s.reg i).toNat * (s.reg j).toNat) % 256))).setPc (s.pc + 3)) ∧
    exec (.addi (regByte i) imm) s =
      .next ((s.setReg i (BitVec.ofNat 8 (((s.reg i).toNat + imm.toNat) % 256))).setPc (s.pc + 3))

/-- INC, DEC, NOT: wrapping by one, and every bit inverted (41_alu.md R107, R108, R111). -/
def Obligations.UnaryResults : Prop :=
  ∀ (s : State) (i : RegIndex), s.pc.toNat + 2 ≤ 255 →
    exec (.inc (regByte i)) s =
      .next ((s.setReg i (if s.reg i = 0xFF#8 then 0x00#8 else BitVec.ofNat 8 ((s.reg i).toNat + 1))).setPc (s.pc + 2)) ∧
    exec (.dec (regByte i)) s =
      .next ((s.setReg i (if s.reg i = 0x00#8 then 0xFF#8 else BitVec.ofNat 8 ((s.reg i).toNat - 1))).setPc (s.pc + 2)) ∧
    exec (.not (regByte i)) s = .next ((s.setReg i (s.reg i ^^^ 0xFF#8)).setPc (s.pc + 2))

/-- AND, OR, XOR bit by bit (41_alu.md R110, R112, R113). -/
def Obligations.LogicResults : Prop :=
  ∀ (s : State) (i j : RegIndex), s.pc.toNat + 3 ≤ 255 →
    ∃ v w u : Byte,
      exec (.and (regByte i) (regByte j)) s = .next ((s.setReg i v).setPc (s.pc + 3)) ∧
      exec (.or (regByte i) (regByte j)) s = .next ((s.setReg i w).setPc (s.pc + 3)) ∧
      exec (.xor (regByte i) (regByte j)) s = .next ((s.setReg i u).setPc (s.pc + 3)) ∧
      ∀ k : Nat, k < 8 →
        v.getLsbD k = ((s.reg i).getLsbD k && (s.reg j).getLsbD k) ∧
        w.getLsbD k = ((s.reg i).getLsbD k || (s.reg j).getLsbD k) ∧
        u.getLsbD k = Bool.xor ((s.reg i).getLsbD k) ((s.reg j).getLsbD k)

/-- SHL and SHR by the whole value of the count register, zeros entering; a count of 8 or more gives 0 (41_alu.md R114,
R115; count and fill are the spec's own decision D16, log 13). -/
def Obligations.ShiftResults : Prop :=
  ∀ (s : State) (i j : RegIndex), s.pc.toNat + 3 ≤ 255 →
    exec (.shl (regByte i) (regByte j)) s =
      .next ((s.setReg i (BitVec.ofNat 8 (((s.reg i).toNat * 2 ^ (s.reg j).toNat) % 256))).setPc (s.pc + 3)) ∧
    exec (.shr (regByte i) (regByte j)) s =
      .next ((s.setReg i (BitVec.ofNat 8 ((s.reg i).toNat / 2 ^ (s.reg j).toNat))).setPc (s.pc + 3)) ∧
    (8 ≤ (s.reg j).toNat →
      exec (.shl (regByte i) (regByte j)) s = .next ((s.setReg i 0x00#8).setPc (s.pc + 3)) ∧
      exec (.shr (regByte i) (regByte j)) s = .next ((s.setReg i 0x00#8).setPc (s.pc + 3)))

/-- DIV and MOD by a divisor other than 0: the quotient `q` and remainder `r` of the unsigned division (41_alu.md R105,
R106; signedness D27, log 24). -/
def Obligations.DivisionResults : Prop :=
  ∀ (s : State) (i j : RegIndex), s.pc.toNat + 3 ≤ 255 → s.reg j ≠ 0x00#8 →
    ∃ q r : Byte,
      exec (.div (regByte i) (regByte j)) s = .next ((s.setReg i q).setPc (s.pc + 3)) ∧
      exec (.mod (regByte i) (regByte j)) s = .next ((s.setReg i r).setPc (s.pc + 3)) ∧
      (s.reg i).toNat = q.toNat * (s.reg j).toNat + r.toNat ∧ r.toNat < (s.reg j).toNat

/-- CMP: one of E, G, L by unsigned comparison, all eight bits of FL written, no register (41_alu.md R109; the bit
positions and the cleared upper bits are the spec's own decision D5, log 4). -/
def Obligations.CompareResults : Prop :=
  ∀ (s : State) (i j : RegIndex), s.pc.toNat + 3 ≤ 255 →
    exec (.cmp (regByte i) (regByte j)) s =
      .next ((s.setFl (if (s.reg i).toNat = (s.reg j).toNat then 0x01#8
        else if (s.reg j).toNat < (s.reg i).toNat then 0x02#8 else 0x04#8)).setPc (s.pc + 3))

/-- LDI, LD, ST (42_data_movement.md R122, R123, R124; operand roles of LD and ST D24, log 3). -/
def Obligations.LoadAndStoreResults : Prop :=
  ∀ (s : State) (i j : RegIndex) (imm : Byte), s.pc.toNat + 3 ≤ 255 →
    exec (.ldi (regByte i) imm) s = .next ((s.setReg i imm).setPc (s.pc + 3)) ∧
    exec (.ld (regByte i) (regByte j)) s = .next ((s.setReg i (s.memRead (s.reg j))).setPc (s.pc + 3)) ∧
    exec (.st (regByte i) (regByte j)) s = .next ((s.memWrite (s.reg i) (s.reg j)).setPc (s.pc + 3))

/-- PUSH and POP for every register, `R7` by the order of the sub-steps (42_data_movement.md R120, R121, R125, R126;
wrapping D12, log 10; `R7` D18, log 15). -/
def Obligations.PushAndPopResults : Prop :=
  ∀ (s : State) (i : RegIndex), s.pc.toNat + 2 ≤ 255 →
    exec (.push (regByte i)) s =
      .next (((s.setReg 7 (s.reg 7 - 1)).memWrite (s.reg 7 - 1) (if i = 7 then s.reg 7 - 1 else s.reg i)).setPc
        (s.pc + 2)) ∧
    exec (.pop (regByte i)) s =
      .next ((if i = 7 then s.setReg 7 (s.memRead (s.reg 7) + 1)
        else (s.setReg i (s.memRead (s.reg 7))).setReg 7 (s.reg 7 + 1)).setPc (s.pc + 2))

/-- CALL, for every register with `R7` by the order of the sub-steps (43_control_transfer.md R131; D18, log 15). -/
def Obligations.CallResult : Prop :=
  ∀ (s : State) (i : RegIndex), s.pc.toNat + 2 ≤ 255 →
    exec (.call (regByte i)) s =
      .next (((s.setReg 7 (s.reg 7 - 1)).memWrite (s.reg 7 - 1) (s.pc + 2)).setPc
        (if i = 7 then s.reg 7 - 1 else s.reg i))

/-- RET from any address and with any stack pointer, and JMP anywhere but at address 255 (43_control_transfer.md R132,
R133; the register target of JMP is D29, log 14). -/
def Obligations.ReturnAndJumpResults : Prop :=
  ∀ s : State,
    exec .ret s = .next ((s.setPc (s.memRead (s.reg 7))).setReg 7 (s.reg 7 + 1)) ∧
    ∀ i : RegIndex, s.pc.toNat + 1 ≤ 255 → exec (.jmp (regByte i)) s = .next (s.setPc (s.reg i))

/-- The six conditional jumps, taken or not, by the bits E = 0, G = 1, L = 2 of FL, for every value of FL
(43_control_transfer.md R134 to R140; JNE, JLE, JGE D17, register target D29, log 14; positions D5, log 4). A jump that is
taken needs no successor address. -/
def Obligations.ConditionalJumpResults : Prop :=
  ∀ (s : State) (i : RegIndex) (jump : Byte → Instr) (taken : Bool),
    (jump, taken) ∈ [(Instr.jeq, s.fl.getLsbD 0), (Instr.jne, !s.fl.getLsbD 0), (Instr.jgt, s.fl.getLsbD 1),
      (Instr.jlt, s.fl.getLsbD 2), (Instr.jle, s.fl.getLsbD 2 || s.fl.getLsbD 0),
      (Instr.jge, s.fl.getLsbD 1 || s.fl.getLsbD 0)] →
    (taken = true → s.pc.toNat + 1 ≤ 255 → exec (jump (regByte i)) s = .next (s.setPc (s.reg i))) ∧
    (taken = false → s.pc.toNat + 2 ≤ 255 → exec (jump (regByte i)) s = .next (s.setPc (s.pc + 2)))

/-- After `CMP p,q` the six jumps are the six unsigned relations, first operand against second
(43_control_transfer.md R134, the table's fourth column). -/
def Obligations.JumpAfterCompareFollowsTheRelation : Prop :=
  ∀ (s : State) (p q i : RegIndex), s.pc.toNat + 5 ≤ 255 →
    ∃ t, exec (.cmp (regByte p) (regByte q)) s = .next t ∧ t.pc = s.pc + 3 ∧
      exec (.jeq (regByte i)) t = .next (t.setPc (if (s.reg p).toNat = (s.reg q).toNat then s.reg i else s.pc + 5)) ∧
      exec (.jne (regByte i)) t = .next (t.setPc (if (s.reg p).toNat ≠ (s.reg q).toNat then s.reg i else s.pc + 5)) ∧
      exec (.jgt (regByte i)) t = .next (t.setPc (if (s.reg p).toNat > (s.reg q).toNat then s.reg i else s.pc + 5)) ∧
      exec (.jlt (regByte i)) t = .next (t.setPc (if (s.reg p).toNat < (s.reg q).toNat then s.reg i else s.pc + 5)) ∧
      exec (.jle (regByte i)) t = .next (t.setPc (if (s.reg p).toNat ≤ (s.reg q).toNat then s.reg i else s.pc + 5)) ∧
      exec (.jge (regByte i)) t = .next (t.setPc (if (s.reg p).toNat ≥ (s.reg q).toNat then s.reg i else s.pc + 5))

/-- HLT (44_system.md R145): its byte is 0x01; it changes the run status and nothing else, at every address, 255 too. A
running machine that fetches it with no interrupt to service ends in HALTED with the pc on it, the poll's effects kept; with
one to service, the cycle is the interrupt's and HLT waits. After HLT every step leaves the state as it is, until a reset. -/
def Obligations.HaltStopsWithPcOnIt : Prop :=
  ∀ s : State,
    encode .hlt = [0x01#8] ∧
    exec .hlt s = .next (s.setRun .halted) ∧
    (s.run = .running → s.poll.serviceable = none → s.poll.memRead s.pc = 0x01#8 →
      step s = .next (s.poll.setRun .halted) ∧ (s.poll.setRun .halted).pc = s.pc) ∧
    (s.run = .running → ∀ l, s.poll.serviceable = some l → step s = .next (s.poll.interruptEntry l)) ∧
    step (s.setRun .halted) = .next (s.setRun .halted) ∧
    ∀ now : Nat, ((s.setRun .halted).assertReset now).run = .running

/-- PRN and PRA append one event and change nothing else but the pc (44_system.md R146, R147; the form of the events D23,
log 20). -/
def Obligations.PrintResults : Prop :=
  ∀ (s : State) (i : RegIndex), s.pc.toNat + 2 ≤ 255 →
    exec (.prn (regByte i)) s = .next ((s.emit (.num (s.reg i))).setPc (s.pc + 2)) ∧
    exec (.pra (regByte i)) s = .next ((s.emit (.chr (s.reg i))).setPc (s.pc + 2))

/-- IRET, from any state (44_system.md R148; outside a handler D30, log 26): nine bytes from `M[SP] .. M[SP+8]`, addresses
modulo 256, into `R6 .. R0`, FL and the pc; SP nine higher; `ie` set; memory, output and the rest unchanged. -/
def Obligations.InterruptReturnResult : Prop :=
  ∀ s : State, ∃ t, exec .iret s = .next t ∧
    t.reg 6 = s.memRead (s.reg 7) ∧ t.reg 5 = s.memRead (s.reg 7 + 1) ∧ t.reg 4 = s.memRead (s.reg 7 + 2) ∧
    t.reg 3 = s.memRead (s.reg 7 + 3) ∧ t.reg 2 = s.memRead (s.reg 7 + 4) ∧ t.reg 1 = s.memRead (s.reg 7 + 5) ∧
    t.reg 0 = s.memRead (s.reg 7 + 6) ∧ t.fl = s.memRead (s.reg 7 + 7) ∧ t.pc = s.memRead (s.reg 7 + 8) ∧
    t.reg 7 = s.reg 7 + 9 ∧ t.ie = true ∧ t.mem = s.mem ∧ t.run = s.run ∧ t.tLast = s.tLast ∧ t.out = s.out ∧
    t.inputs = s.inputs ∧ t.samples = s.samples

/-! ### Faults -/

/-- DIV and MOD with a divisor register that holds 0 end the run with ArithmeticFault and write no register, whatever the
successor address is (41_alu.md R105, R106; 60_exceptions.md R162; no effect at all: D13, log 11). -/
def Obligations.ZeroDivisorFaults : Prop :=
  ∀ (s : State) (i j : RegIndex), s.pc.toNat + 2 ≤ 255 → s.reg j = 0x00#8 →
    exec (.div (regByte i) (regByte j)) s =
      .next (s.setRun (.faulted .arithmeticFault s.pc (s.memRead s.pc))) ∧
    exec (.mod (regByte i) (regByte j)) s =
      .next (s.setRun (.faulted .arithmeticFault s.pc (s.memRead s.pc)))

/-- An instruction with a register operand byte above 7 ends the run with OutOfRange(RegisterIndex) and has no effect: every
format, either operand, a jump that would not be taken too, and before the divisor and the successor are looked at
(40_execution_cycle.md R74, R76; the spec's own decision D10, D13, D14, log 8, log 11). -/
def Obligations.RegisterIndexAboveSevenFaults : Prop :=
  ∀ (i : Instr) (s : State), i.wellFormed = false → s.pc.toNat + operandCount i.opcode ≤ 255 →
    exec i s = .next (s.setRun (.faulted (.outOfRange .registerIndex) s.pc (s.memRead s.pc)))

/-- A well-formed instruction whose last byte is at address 255 and that needs its successor address ends the run with
OutOfRange(NextPc) and has no effect, unless it divides by zero, which is found first (40_execution_cycle.md R74, R80; the
spec's own decision D11, D14, log 9, log 11). -/
def Obligations.SuccessorAboveMemoryFaults : Prop :=
  ∀ (i : Instr) (s : State), i.wellFormed = true → s.pc.toNat + operandCount i.opcode = 255 →
    needsNext i s → ¬ dividesByZero i s →
    exec i s = .next (s.setRun (.faulted (.outOfRange .nextPc) s.pc (s.memRead s.pc)))

/-- An opcode whose operand bytes would lie above address 255 ends the run with OutOfRange(OperandFetch); no operand is
looked at (40_execution_cycle.md R75; the spec's own decision D11, log 9). -/
def Obligations.OperandFetchAboveMemoryFaults : Prop :=
  ∀ s : State, s.run = .running → s.poll.serviceable = none → isOpcode (s.poll.memRead s.pc) = true →
    255 < s.pc.toNat + operandCount (s.poll.memRead s.pc) →
    step s = .next (s.poll.setRun (.faulted (.outOfRange .operandFetch) s.pc (s.poll.memRead s.pc)))

/-- Fetching a byte that is none of the 33 opcodes ends the run with DecodeFailure, the pc and the byte recorded, and
nothing but the poll has happened (30_encoding.md R59; 60_exceptions.md R161; the byte values D2, D3, D4, log 1 to 3). -/
def Obligations.UndefinedOpcodeFaults : Prop :=
  ∀ s : State, s.run = .running → s.poll.serviceable = none →
    s.poll.memRead s.pc ∉ [0x01#8, 0x11#8, 0x13#8, 0x45#8, 0x46#8, 0x47#8, 0x48#8, 0x50#8, 0x54#8, 0x55#8, 0x56#8, 0x57#8,
      0x58#8, 0x59#8, 0x5A#8, 0x65#8, 0x66#8, 0x69#8, 0x82#8, 0x83#8, 0x84#8, 0xA0#8, 0xA1#8, 0xA2#8, 0xA3#8, 0xA4#8,
      0xA7#8, 0xA8#8, 0xAA#8, 0xAB#8, 0xAC#8, 0xAD#8, 0xAE#8] →
    step s = .next (s.poll.setRun (.faulted .decodeFailure s.pc (s.poll.memRead s.pc)))

/-- Every fault is precise, over the whole machine: a cycle that ends FAULTED has had no effect but the poll's, and records
the pc and the byte there (60_exceptions.md R160, R165; the spec's own decision D13, log 11). -/
def Obligations.FaultsArePrecise : Prop :=
  ∀ (s t : State) (c : Fault) (p o : Byte), s.run = .running → step s = .next t → t.run = .faulted c p o →
    t = s.poll.setRun (.faulted c p o) ∧ p = s.pc ∧ o = s.poll.memRead s.pc

/-! ### The cycle -/

/-- A STEP RUNS THE DECODED INSTRUCTION: in a running machine with no interrupt to service, when the bytes at the pc that
exist decode to an instruction, the step is `exec` of it in the state after the poll; the bytes are read like data. -/
def Obligations.StepRunsTheDecodedInstruction : Prop :=
  ∀ (s : State) (i : Instr) (rest : List Byte), s.run = .running → s.poll.serviceable = none →
    decode s.poll.fetchBytes = .ok (i, rest) → step s = exec i s.poll

/-- The same from the encoding's side: when the bytes of an instruction stand in memory at the pc, the step runs it. -/
def Obligations.StepRunsTheEncodedInstruction : Prop :=
  ∀ (s : State) (i : Instr), s.run = .running → s.poll.serviceable = none →
    s.pc.toNat + (encode i).length ≤ 256 →
    (∀ k (h : k < (encode i).length), s.poll.memRead (s.pc + BitVec.ofNat 8 k) = (encode i)[k]) →
    step s = exec i s.poll

/-- What the host places with `withFetchWord` is what the very next step runs, from every state whose pc leaves room for
three bytes, halted, faulted and interrupted ones too. -/
def Obligations.PlacedWordRunsNext : Prop :=
  ∀ (s : State) (nbits w : Nat) (i : Instr), s.pc.toNat + 2 ≤ 255 → decodeTableWord nbits w = some i →
    step (s.withFetchWord nbits w) = exec i (s.withFetchWord nbits w).poll

/-- A machine that is not running does nothing: no poll, no interrupt, no fetch; its state is frozen, the pending samples
too. HLT and every fault make it so, and the reset line ends it (40_execution_cycle.md R81). -/
def Obligations.StoppedMachineIsFrozen : Prop :=
  (∀ s : State, s.run ≠ .running → step s = .next s) ∧
  (∀ s : State, ∃ t, exec .hlt s = .next t ∧ step t = .next t) ∧
  (∀ (s : State) (c : Fault), ∃ t, raise c s = .next t ∧ step t = .next t) ∧
  (∀ (s : State) (now : Nat), (s.assertReset now).run = .running)

/-- Every step answers a next state: the model stops nowhere by a fault or a refusal of its own (log 12). -/
def Obligations.EveryStepAnswersANextState : Prop := ∀ s : State, ∃ t, step s = .next t

/-- The poll (60_exceptions.md R172, R173): an input byte goes to `KEY_ADDR` and sets IS bit 1; a tick sets IS bit 0; nothing
else changes in registers, memory, pc, flags, `ie`, run status or output, whatever `ie`, IM and IS are; a bit that is set
stays set. The sample may be a listed one or a free one. -/
def Obligations.PollEffects : Prop :=
  ∀ (s : State) (key : Option Byte) (now : Nat), s.nextInput = { key := key, now := now } →
    (∀ r : RegIndex, s.poll.reg r = if r = 6 then
        s.reg 6 ||| (if key.isSome then 0x02#8 else 0x00#8) ||| (if s.tick now then 0x01#8 else 0x00#8)
      else s.reg r) ∧
    (∀ a : Byte, s.poll.memRead a = if a = cfg.keyAddr then key.getD (s.memRead a) else s.memRead a) ∧
    s.poll.pc = s.pc ∧ s.poll.fl = s.fl ∧ s.poll.ie = s.ie ∧ s.poll.run = s.run ∧ s.poll.out = s.out

/-- The tick (60_exceptions.md R186, R187): true when a timer period has passed since `t_last`, which then becomes `now`
(the spec's own decision D22; the clock and the samples are the model's, log 18, log 19); the sample, listed or free, is
consumed; and the tick is a free input, in every state both of its values are possible samples. -/
def Obligations.TickIsFree : Prop :=
  ∀ s : State,
    s.poll.inputs = s.inputs.tail ∧ s.poll.samples = s.samples + 1 ∧
    s.poll.tLast = (if s.tLast + cfg.timerPeriod ≤ s.nextInput.now then s.nextInput.now else s.tLast) ∧
    ∀ b : Bool, ∃ now : Nat, s.tLast ≤ now ∧
      ∀ key : Option Byte, (s.setInputs [{ key := key, now := now }]).poll.tLast = (if b then now else s.tLast) ∧
        (b = true → (s.setInputs [{ key := key, now := now }]).poll.reg 6 &&& 0x01#8 = 0x01#8) ∧
        (b = false → (s.setInputs [{ key := key, now := now }]).poll.reg 6 &&& 0x01#8 = s.reg 6 &&& 0x01#8)

/-- The inputs never end (60_exceptions.md R187, R188; 93_implementation_defined.md W1, W2; the model's form of it, log 18):
in a run of any length, cycle `n` samples entry `n` of what was listed and, from the end of the list on, the free byte and the
free clock of its number; of these no statement knows a value. -/
def Obligations.SamplesNeverEnd : Prop :=
  ∀ (n : Nat) (states : Nat → State),
    (∀ k < n, (states k).run = .running ∧ step (states k) = .next (states (k + 1))) →
    (states n).inputs = (states 0).inputs.drop n ∧ (states n).samples = (states 0).samples + n ∧
    (states n).nextInput =
      if h : n < (states 0).inputs.length then (states 0).inputs[n]
      else { key := Config.freeKey ((states 0).samples + n), now := Config.freeNow ((states 0).samples + n) }

/-- The line that is serviced, if any: `ie` set, raised in IS and enabled in IM, and the lowest such
(60_exceptions.md R171, R177). -/
def Obligations.LowestPendingLineIsServiced : Prop :=
  ∀ s : State,
    (∀ l : Nat, s.serviceable = some l ↔
      s.ie = true ∧ l < 8 ∧ (s.reg 5).getLsbD l = true ∧ (s.reg 6).getLsbD l = true ∧
      ∀ k < l, ¬ ((s.reg 5).getLsbD k = true ∧ (s.reg 6).getLsbD k = true)) ∧
    (s.serviceable = none ↔ s.ie = false ∨ s.reg 5 &&& s.reg 6 = 0x00#8)

/-- The interrupt check (40_execution_cycle.md R72, 60_exceptions.md R171): a running machine with a line to service after
the poll enters the interrupt of the lowest pending line and fetches nothing; otherwise step 2 changes nothing and it goes on
to the fetch. The entry leaves `ie` clear and the other lines raised. -/
def Obligations.InterruptCheckPrecedesFetch : Prop :=
  ∀ s : State, s.run = .running →
    (s.poll.ie = true → s.poll.reg 5 &&& s.poll.reg 6 ≠ 0x00#8 →
      ∃ l < 8, (s.poll.reg 5 &&& s.poll.reg 6).getLsbD l = true ∧
        (∀ k < l, (s.poll.reg 5 &&& s.poll.reg 6).getLsbD k = false) ∧
        step s = .next (s.poll.interruptEntry l) ∧ (s.poll.interruptEntry l).ie = false ∧
        ∀ k < 8, ((s.poll.interruptEntry l).reg 6).getLsbD k = (decide (k ≠ l) && (s.poll.reg 6).getLsbD k)) ∧
    (s.poll.ie = false ∨ s.poll.reg 5 &&& s.poll.reg 6 = 0x00#8 → step s = fetchExecute s.poll)

/-- Interrupt entry (60_exceptions.md R179, with the frame table): the nine cells below SP, in the order of the spec's
resolution C2, D20 (log 17), addresses modulo 256; SP nine lower; the serviced line's bit cleared; the pc from the vector
(`VECTOR_BASE`: D7, log 6), read after the pushes; and nothing else. -/
def Obligations.InterruptEntryEffects : Prop :=
  ∀ (s : State) (l : Nat), l < 8 →
    (s.interruptEntry l).reg 7 = s.reg 7 - 9 ∧
    (∀ k < 8, ((s.interruptEntry l).reg 6).getLsbD k = (decide (k ≠ l) && (s.reg 6).getLsbD k)) ∧
    (∀ r : RegIndex, r ≠ 6 → r ≠ 7 → (s.interruptEntry l).reg r = s.reg r) ∧
    (s.interruptEntry l).memRead (s.reg 7 - 1) = s.pc ∧
    (s.interruptEntry l).memRead (s.reg 7 - 2) = s.fl ∧
    (s.interruptEntry l).memRead (s.reg 7 - 3) = s.reg 0 ∧
    (s.interruptEntry l).memRead (s.reg 7 - 4) = s.reg 1 ∧
    (s.interruptEntry l).memRead (s.reg 7 - 5) = s.reg 2 ∧
    (s.interruptEntry l).memRead (s.reg 7 - 6) = s.reg 3 ∧
    (s.interruptEntry l).memRead (s.reg 7 - 7) = s.reg 4 ∧
    (s.interruptEntry l).memRead (s.reg 7 - 8) = s.reg 5 ∧
    (s.interruptEntry l).memRead (s.reg 7 - 9) = (s.interruptEntry l).reg 6 ∧
    (∀ a : Byte, (∀ k : Nat, 1 ≤ k → k ≤ 9 → a ≠ s.reg 7 - BitVec.ofNat 8 k) →
      (s.interruptEntry l).memRead a = s.memRead a) ∧
    (s.interruptEntry l).pc = (s.interruptEntry l).memRead (BitVec.ofNat 8 (cfg.vectorBase + l)) ∧
    (s.interruptEntry l).ie = false ∧ (s.interruptEntry l).fl = s.fl ∧ (s.interruptEntry l).run = s.run ∧
    (s.interruptEntry l).tLast = s.tLast ∧ (s.interruptEntry l).out = s.out ∧ (s.interruptEntry l).inputs = s.inputs ∧
    (s.interruptEntry l).samples = s.samples

/-- Entry and return: from any state `t` in which SP is where the entry left it and the nine cells of the frame hold what it
stored (whatever the handler did to everything else), IRET gives back the interrupted pc, FL, R0 to R5 and SP, and R6 with
the serviced bit cleared, and sets `ie` (60_exceptions.md R180). -/
def Obligations.EntryThenReturnRestores : Prop :=
  ∀ (s t : State) (l : Nat), l < 8 → t.reg 7 = (s.interruptEntry l).reg 7 →
    (∀ k : Nat, 1 ≤ k → k ≤ 9 →
      t.memRead (s.reg 7 - BitVec.ofNat 8 k) = (s.interruptEntry l).memRead (s.reg 7 - BitVec.ofNat 8 k)) →
    ∃ u, exec .iret t = .next u ∧ u.pc = s.pc ∧ u.fl = s.fl ∧ (∀ r : RegIndex, r ≠ 6 → u.reg r = s.reg r) ∧
      (∀ k < 8, (u.reg 6).getLsbD k = (decide (k ≠ l) && (s.reg 6).getLsbD k)) ∧ u.ie = true ∧ u.mem = t.mem

/-- Interrupts do not nest (60_exceptions.md R181; 10_state.md R17): with `ie` clear a running machine fetches whatever is
pending, and only an IRET at the pc leaves it with `ie` set. -/
def Obligations.InterruptsDoNotNest : Prop :=
  ∀ s : State, s.run = .running → s.ie = false →
    step s = fetchExecute s.poll ∧
    ∀ t, step s = .next t → t.ie = true → s.poll.memRead s.pc = 0x13#8

/-- A status bit raised while a handler runs is lost at IRET, and so is a change of the mask: what R0 to R6, FL and `ie`
hold before an IRET makes no difference after it (60_exceptions.md R182). -/
def Obligations.ReturnForgetsTheHandlersRegisters : Prop :=
  ∀ (s t : State), s.reg 7 = t.reg 7 → s.mem = t.mem → s.run = t.run → s.tLast = t.tLast → s.out = t.out →
    s.inputs = t.inputs → s.samples = t.samples → ∃ u, exec .iret s = .next u ∧ exec .iret t = .next u

/-! ### Round trips -/

/-- PUSH then POP of the same register, other than R7, gives back every register and SP (42_data_movement.md R126). -/
def Obligations.PushThenPopRestores : Prop :=
  ∀ (s : State) (i : RegIndex), i ≠ 7 → s.pc.toNat + 4 ≤ 255 →
    ∃ t u, exec (.push (regByte i)) s = .next t ∧ exec (.pop (regByte i)) t = .next u ∧
      (∀ r : RegIndex, u.reg r = s.reg r) ∧ u.pc = s.pc + 4 ∧ u.fl = s.fl ∧ u.ie = s.ie ∧
      ∀ a : Byte, a ≠ s.reg 7 - 1 → u.memRead a = s.memRead a

/-- CALL then RET, from any state `t` in which SP and the byte on top of the stack are what CALL left: the pc is that of the
instruction after the CALL, and SP is what it was before it (43_control_transfer.md R141). -/
def Obligations.CallThenReturnComesBack : Prop :=
  ∀ (s : State) (i : RegIndex), s.pc.toNat + 2 ≤ 255 →
    ∃ c, exec (.call (regByte i)) s = .next c ∧
      ∀ t : State, t.reg 7 = c.reg 7 → t.memRead (t.reg 7) = c.memRead (t.reg 7) →
        ∃ u, exec .ret t = .next u ∧ u.pc = s.pc + 2 ∧ u.reg 7 = s.reg 7

/-- A store is seen by the very next fetch: after an ST to the address of the next instruction, the byte stored is the
first byte fetched (20_memory.md R42). -/
def Obligations.StoredByteIsFetchedNext : Prop :=
  ∀ (s : State) (i j : RegIndex), s.pc.toNat + 3 ≤ 255 → s.reg i = s.pc + 3 →
    ∃ t, exec (.st (regByte i) (regByte j)) s = .next t ∧ t.pc = s.pc + 3 ∧ t.fetchBytes.head? = some (s.reg j)

/-! ### Frames, over all instructions -/

/-- Registers: when an instruction gives a next state, a register that differs is its destination (ALU but CMP, LDI, LD,
POP), or SP of PUSH, POP, CALL, RET, IRET, or one of R0 to R6 of IRET (10_state.md R12). -/
def Obligations.RegisterFrame : Prop :=
  ∀ (i : Instr) (s t : State) (r : RegIndex), exec i s = .next t → t.reg r ≠ s.reg r →
    destination i = some (regByte r) ∨ (r = 7 ∧ movesStack i) ∨ (r ≠ 7 ∧ i = .iret)

/-- Flags: only CMP and IRET write FL (10_state.md R16); every other instruction leaves all eight bits. -/
def Obligations.FlagFrame : Prop :=
  ∀ (i : Instr) (s t : State), exec i s = .next t → (∀ a b, i ≠ .cmp a b) → i ≠ .iret → t.fl = s.fl

/-- Memory, instructions that store nothing: every byte reads as before (20_memory.md R33). -/
def Obligations.NonStoringMemoryFrame : Prop :=
  ∀ (i : Instr) (s t : State), exec i s = .next t → ¬ storesToMemory i → ∀ a : Byte, t.memRead a = s.memRead a

/-- Memory, instructions that store: ST stores one byte at the address in its first register, PUSH and CALL one byte at the
decremented SP; every other byte reads as before (20_memory.md R33). -/
def Obligations.StoringMemoryFrame : Prop :=
  (∀ (s t : State) (i j : RegIndex) (a : Byte), exec (.st (regByte i) (regByte j)) s = .next t → a ≠ s.reg i →
    t.memRead a = s.memRead a) ∧
  (∀ (s t : State) (o a : Byte), exec (.push o) s = .next t → a ≠ s.decSp.reg 7 → t.memRead a = s.memRead a) ∧
  (∀ (s t : State) (o a : Byte), exec (.call o) s = .next t → a ≠ s.decSp.reg 7 → t.memRead a = s.memRead a)

/-- The rest: `ie` is written by IRET only (10_state.md R17), the output by PRN and PRA only, the run status by HLT or a
fault only; no instruction touches `t_last` or the coming samples. -/
def Obligations.ControlStateFrame : Prop :=
  ∀ (i : Instr) (s t : State), exec i s = .next t →
    (i ≠ .iret → t.ie = s.ie) ∧
    ((∀ a, i ≠ .prn a) → (∀ a, i ≠ .pra a) → t.out = s.out) ∧
    (i ≠ .hlt → t.run = s.run ∨ ∃ c, t = s.setRun (.faulted c s.pc (s.memRead s.pc))) ∧
    t.tLast = s.tLast ∧ t.inputs = s.inputs ∧ t.samples = s.samples

/-- The advance (40_execution_cycle.md R78): an instruction whose opcode has the sets-PC bit clear, other than HLT, and that
does not fault, moves the pc by one and its operand count, both read from the opcode byte, without wrapping; HLT leaves it.
That the sets-PC bit is bit 4 is the spec's own decision D1 on conflict C1 (log 27), and the opcode bytes are presumed (D2,
log 1; D3, log 2). -/
def Obligations.PcAdvance : Prop :=
  (∀ (i : Instr) (s t : State), s.run = .running → exec i s = .next t → t.run = .running →
    setsPcBit i.opcode = false → i ≠ .hlt → t.pc.toNat = s.pc.toNat + 1 + operandCount i.opcode) ∧
  (∀ s t : State, exec .hlt s = .next t → t.pc = s.pc)

/-! ### The whole machine -/

/-- AN INVARIANT THAT EVERY STEP KEEPS, from every state that has it: memory is in canonical form, a halted machine stands on
a HLT, and a faulted one on the recorded pc and opcode with the cause that applies there: the first condition, in the order
of the spec's own decision D14 (log 11), that holds of the instruction at the pc (60_exceptions.md R161 to R165; register
index D10, log 8; addresses D11, log 9). An immediate above 7 explains no fault, nor does a successor address that is not
needed. -/
def Obligations.StepKeepsTheInvariant : Prop :=
  ∀ s t : State, s.inv → step s = .next t → t.inv

/-- The invariant holds right after reset, whatever is to be sampled. -/
def Obligations.ResetHasTheInvariant : Prop :=
  ∀ (l : List CycleInput) (n : Nat), ((State.reset.setInputs l).setSamples n).inv

/-- The core never reads its output back (10_state.md R24): a step does the same whatever has been emitted, and what it
emits goes after it. -/
def Obligations.OutputIsNeverReadBack : Prop :=
  ∀ (s t : State) (earlier : List OutEvent), step s = .next t →
    step { s with out := earlier ++ s.out } = .next { t with out := earlier ++ t.out }

/-- A step emits at most one event, keeps the order of the earlier ones, and emits one only by a PRN or PRA at the pc
(10_state.md R24; their opcode bytes 0x47 and 0x48: log 1). -/
def Obligations.OutputIsAppendOnly : Prop :=
  ∀ s t : State, step s = .next t →
    t.out = s.out ∨ ∃ e, t.out = s.out ++ [e] ∧ (s.poll.memRead s.pc = 0x47#8 ∨ s.poll.memRead s.pc = 0x48#8)

/-- The time of the last tick is hidden (10_state.md R20): two machines that differ in `t_last` only, and neither of which
ticks in this cycle, do the same, whether the sample is a listed one or a free one. -/
def Obligations.LastTickIsHidden : Prop :=
  ∀ (s t : State) (time : Nat), s.tick s.nextInput.now = false → (s.setTLast time).tick s.nextInput.now = false →
    step s = .next t → step (s.setTLast time) = .next (t.setTLast time)
end

