-- ==== Sys2Proof/Laws/Decode.lean ====
section
/-! SUPPORT. The opcode map: its checks of 30_encoding.md R58, and lookup by an instruction's own opcode. -/

namespace Sys2Proof.Laws

/-- The parameters satisfy the constraints of 00_scope.md R3. -/
theorem cfg_valid : Machine.cfg.valid = true := by decide

/-- The opcode map has the bytes of the parameters, in their order. -/
theorem opcodeMap_bytes : opcodeMap.map Prod.fst = Machine.cfg.opcodeRows.map Prod.fst := rfl

/-! ### The opcode byte of each instruction, as spec/opcode_table.json has it -/

@[simp] theorem opcode_hlt : (Instr.hlt).opcode = 0x01#8 := rfl
@[simp] theorem opcode_ret : (Instr.ret).opcode = 0x11#8 := rfl
@[simp] theorem opcode_iret : (Instr.iret).opcode = 0x13#8 := rfl
@[simp] theorem opcode_push (a : Byte) : (Instr.push a).opcode = 0x45#8 := rfl
@[simp] theorem opcode_pop (a : Byte) : (Instr.pop a).opcode = 0x46#8 := rfl
@[simp] theorem opcode_prn (a : Byte) : (Instr.prn a).opcode = 0x47#8 := rfl
@[simp] theorem opcode_pra (a : Byte) : (Instr.pra a).opcode = 0x48#8 := rfl
@[simp] theorem opcode_call (a : Byte) : (Instr.call a).opcode = 0x50#8 := rfl
@[simp] theorem opcode_jmp (a : Byte) : (Instr.jmp a).opcode = 0x54#8 := rfl
@[simp] theorem opcode_jeq (a : Byte) : (Instr.jeq a).opcode = 0x55#8 := rfl
@[simp] theorem opcode_jne (a : Byte) : (Instr.jne a).opcode = 0x56#8 := rfl
@[simp] theorem opcode_jgt (a : Byte) : (Instr.jgt a).opcode = 0x57#8 := rfl
@[simp] theorem opcode_jlt (a : Byte) : (Instr.jlt a).opcode = 0x58#8 := rfl
@[simp] theorem opcode_jle (a : Byte) : (Instr.jle a).opcode = 0x59#8 := rfl
@[simp] theorem opcode_jge (a : Byte) : (Instr.jge a).opcode = 0x5A#8 := rfl
@[simp] theorem opcode_inc (a : Byte) : (Instr.inc a).opcode = 0x65#8 := rfl
@[simp] theorem opcode_dec (a : Byte) : (Instr.dec a).opcode = 0x66#8 := rfl
@[simp] theorem opcode_not (a : Byte) : (Instr.not a).opcode = 0x69#8 := rfl
@[simp] theorem opcode_ldi (a b : Byte) : (Instr.ldi a b).opcode = 0x82#8 := rfl
@[simp] theorem opcode_ld (a b : Byte) : (Instr.ld a b).opcode = 0x83#8 := rfl
@[simp] theorem opcode_st (a b : Byte) : (Instr.st a b).opcode = 0x84#8 := rfl
@[simp] theorem opcode_add (a b : Byte) : (Instr.add a b).opcode = 0xA0#8 := rfl
@[simp] theorem opcode_sub (a b : Byte) : (Instr.sub a b).opcode = 0xA1#8 := rfl
@[simp] theorem opcode_mul (a b : Byte) : (Instr.mul a b).opcode = 0xA2#8 := rfl
@[simp] theorem opcode_div (a b : Byte) : (Instr.div a b).opcode = 0xA3#8 := rfl
@[simp] theorem opcode_mod (a b : Byte) : (Instr.mod a b).opcode = 0xA4#8 := rfl
@[simp] theorem opcode_cmp (a b : Byte) : (Instr.cmp a b).opcode = 0xA7#8 := rfl
@[simp] theorem opcode_and (a b : Byte) : (Instr.and a b).opcode = 0xA8#8 := rfl
@[simp] theorem opcode_or (a b : Byte) : (Instr.or a b).opcode = 0xAA#8 := rfl
@[simp] theorem opcode_xor (a b : Byte) : (Instr.xor a b).opcode = 0xAB#8 := rfl
@[simp] theorem opcode_shl (a b : Byte) : (Instr.shl a b).opcode = 0xAC#8 := rfl
@[simp] theorem opcode_shr (a b : Byte) : (Instr.shr a b).opcode = 0xAD#8 := rfl
@[simp] theorem opcode_addi (a b : Byte) : (Instr.addi a b).opcode = 0xAE#8 := rfl

/-! ### The map -/

/-- All opcode bytes are distinct (30_encoding.md R58; for `OPC_ADDI`, 00_scope.md R3). -/
theorem opcodes_distinct : (opcodeMap.map Prod.fst).Nodup := by decide

/-- A byte that the map finds is one of the map's bytes. -/
theorem findForm_mem {ir : Byte} {f : Form} {rows : List (Byte × Form)} (h : findForm ir rows = some f) :
    (ir, f) ∈ rows := by
  induction rows with
  | nil => exact absurd h (by simp [findForm])
  | cons r rows ih =>
    obtain ⟨op, g⟩ := r
    by_cases hop : op = ir
    · simp only [findForm, hop, if_true, Option.some.injEq] at h
      simp [hop, h]
    · simp only [findForm, hop, if_false] at h
      exact List.mem_cons_of_mem _ (ih h)

/-- The lookup finds a byte exactly when it stands in the map. -/
theorem findForm_isSome {ir : Byte} (rows : List (Byte × Form)) :
    (findForm ir rows).isSome = true ↔ ir ∈ rows.map Prod.fst := by
  induction rows with
  | nil => simp [findForm]
  | cons r rows ih =>
    obtain ⟨op, g⟩ := r
    by_cases hop : op = ir
    · simp [findForm, hop]
    · have hne : ir ≠ op := fun e => hop e.symm
      simp [findForm, hop, hne, ih]

/-- Decoding an opcode that the map does not hold. -/
theorem decode_unknown {ir : Byte} {rest : List Byte} (h : lookupOpcode ir = none) :
    decode (ir :: rest) = .error (.unknownOpcode ir) := by
  simp [decode, h]

/-- Decoding an opcode that the map holds. -/
theorem decode_known {ir : Byte} {rest : List Byte} {f : Form} (h : lookupOpcode ir = some f) :
    decode (ir :: rest) = f.read rest := by
  simp [decode, h]

end Sys2Proof.Laws
end

