-- ==== Sys2Proof/Laws/State.lean ====
section
/-! SUPPORT. One lemma per field of State per update, and the two reads (`reg`, `memRead`) through each update. -/

namespace Sys2Proof.Machine

/-! ### setReg -/

@[simp] theorem State.setReg_regs (s : State) (i : RegIndex) (v : Byte) : (s.setReg i v).regs = s.regs.set i v := rfl
@[simp] theorem State.setReg_pc (s : State) (i : RegIndex) (v : Byte) : (s.setReg i v).pc = s.pc := rfl
@[simp] theorem State.setReg_fl (s : State) (i : RegIndex) (v : Byte) : (s.setReg i v).fl = s.fl := rfl
@[simp] theorem State.setReg_ie (s : State) (i : RegIndex) (v : Byte) : (s.setReg i v).ie = s.ie := rfl
@[simp] theorem State.setReg_mem (s : State) (i : RegIndex) (v : Byte) : (s.setReg i v).mem = s.mem := rfl
@[simp] theorem State.setReg_run (s : State) (i : RegIndex) (v : Byte) : (s.setReg i v).run = s.run := rfl
@[simp] theorem State.setReg_tLast (s : State) (i : RegIndex) (v : Byte) : (s.setReg i v).tLast = s.tLast := rfl
@[simp] theorem State.setReg_out (s : State) (i : RegIndex) (v : Byte) : (s.setReg i v).out = s.out := rfl
@[simp] theorem State.setReg_inputs (s : State) (i : RegIndex) (v : Byte) : (s.setReg i v).inputs = s.inputs := rfl
@[simp] theorem State.setReg_samples (s : State) (i : RegIndex) (v : Byte) : (s.setReg i v).samples = s.samples := rfl
@[simp] theorem State.setReg_memRead (s : State) (i : RegIndex) (v : Byte) (k : Byte) : (s.setReg i v).memRead k = s.memRead k := rfl

/-! ### setPc -/

@[simp] theorem State.setPc_regs (s : State) (v : Byte) : (s.setPc v).regs = s.regs := rfl
@[simp] theorem State.setPc_pc (s : State) (v : Byte) : (s.setPc v).pc = v := rfl
@[simp] theorem State.setPc_fl (s : State) (v : Byte) : (s.setPc v).fl = s.fl := rfl
@[simp] theorem State.setPc_ie (s : State) (v : Byte) : (s.setPc v).ie = s.ie := rfl
@[simp] theorem State.setPc_mem (s : State) (v : Byte) : (s.setPc v).mem = s.mem := rfl
@[simp] theorem State.setPc_run (s : State) (v : Byte) : (s.setPc v).run = s.run := rfl
@[simp] theorem State.setPc_tLast (s : State) (v : Byte) : (s.setPc v).tLast = s.tLast := rfl
@[simp] theorem State.setPc_out (s : State) (v : Byte) : (s.setPc v).out = s.out := rfl
@[simp] theorem State.setPc_inputs (s : State) (v : Byte) : (s.setPc v).inputs = s.inputs := rfl
@[simp] theorem State.setPc_samples (s : State) (v : Byte) : (s.setPc v).samples = s.samples := rfl
@[simp] theorem State.setPc_reg (s : State) (v : Byte) (k : RegIndex) : (s.setPc v).reg k = s.reg k := rfl
@[simp] theorem State.setPc_memRead (s : State) (v : Byte) (k : Byte) : (s.setPc v).memRead k = s.memRead k := rfl

/-! ### setFl -/

@[simp] theorem State.setFl_regs (s : State) (v : Byte) : (s.setFl v).regs = s.regs := rfl
@[simp] theorem State.setFl_pc (s : State) (v : Byte) : (s.setFl v).pc = s.pc := rfl
@[simp] theorem State.setFl_fl (s : State) (v : Byte) : (s.setFl v).fl = v := rfl
@[simp] theorem State.setFl_ie (s : State) (v : Byte) : (s.setFl v).ie = s.ie := rfl
@[simp] theorem State.setFl_mem (s : State) (v : Byte) : (s.setFl v).mem = s.mem := rfl
@[simp] theorem State.setFl_run (s : State) (v : Byte) : (s.setFl v).run = s.run := rfl
@[simp] theorem State.setFl_tLast (s : State) (v : Byte) : (s.setFl v).tLast = s.tLast := rfl
@[simp] theorem State.setFl_out (s : State) (v : Byte) : (s.setFl v).out = s.out := rfl
@[simp] theorem State.setFl_inputs (s : State) (v : Byte) : (s.setFl v).inputs = s.inputs := rfl
@[simp] theorem State.setFl_samples (s : State) (v : Byte) : (s.setFl v).samples = s.samples := rfl
@[simp] theorem State.setFl_reg (s : State) (v : Byte) (k : RegIndex) : (s.setFl v).reg k = s.reg k := rfl
@[simp] theorem State.setFl_memRead (s : State) (v : Byte) (k : Byte) : (s.setFl v).memRead k = s.memRead k := rfl

/-! ### setIe -/

@[simp] theorem State.setIe_regs (s : State) (v : Bool) : (s.setIe v).regs = s.regs := rfl
@[simp] theorem State.setIe_pc (s : State) (v : Bool) : (s.setIe v).pc = s.pc := rfl
@[simp] theorem State.setIe_fl (s : State) (v : Bool) : (s.setIe v).fl = s.fl := rfl
@[simp] theorem State.setIe_ie (s : State) (v : Bool) : (s.setIe v).ie = v := rfl
@[simp] theorem State.setIe_mem (s : State) (v : Bool) : (s.setIe v).mem = s.mem := rfl
@[simp] theorem State.setIe_run (s : State) (v : Bool) : (s.setIe v).run = s.run := rfl
@[simp] theorem State.setIe_tLast (s : State) (v : Bool) : (s.setIe v).tLast = s.tLast := rfl
@[simp] theorem State.setIe_out (s : State) (v : Bool) : (s.setIe v).out = s.out := rfl
@[simp] theorem State.setIe_inputs (s : State) (v : Bool) : (s.setIe v).inputs = s.inputs := rfl
@[simp] theorem State.setIe_samples (s : State) (v : Bool) : (s.setIe v).samples = s.samples := rfl
@[simp] theorem State.setIe_reg (s : State) (v : Bool) (k : RegIndex) : (s.setIe v).reg k = s.reg k := rfl
@[simp] theorem State.setIe_memRead (s : State) (v : Bool) (k : Byte) : (s.setIe v).memRead k = s.memRead k := rfl

/-! ### setRun -/

@[simp] theorem State.setRun_regs (s : State) (r : RunStatus) : (s.setRun r).regs = s.regs := rfl
@[simp] theorem State.setRun_pc (s : State) (r : RunStatus) : (s.setRun r).pc = s.pc := rfl
@[simp] theorem State.setRun_fl (s : State) (r : RunStatus) : (s.setRun r).fl = s.fl := rfl
@[simp] theorem State.setRun_ie (s : State) (r : RunStatus) : (s.setRun r).ie = s.ie := rfl
@[simp] theorem State.setRun_mem (s : State) (r : RunStatus) : (s.setRun r).mem = s.mem := rfl
@[simp] theorem State.setRun_run (s : State) (r : RunStatus) : (s.setRun r).run = r := rfl
@[simp] theorem State.setRun_tLast (s : State) (r : RunStatus) : (s.setRun r).tLast = s.tLast := rfl
@[simp] theorem State.setRun_out (s : State) (r : RunStatus) : (s.setRun r).out = s.out := rfl
@[simp] theorem State.setRun_inputs (s : State) (r : RunStatus) : (s.setRun r).inputs = s.inputs := rfl
@[simp] theorem State.setRun_samples (s : State) (r : RunStatus) : (s.setRun r).samples = s.samples := rfl
@[simp] theorem State.setRun_reg (s : State) (r : RunStatus) (k : RegIndex) : (s.setRun r).reg k = s.reg k := rfl
@[simp] theorem State.setRun_memRead (s : State) (r : RunStatus) (k : Byte) : (s.setRun r).memRead k = s.memRead k := rfl

/-! ### setTLast -/

@[simp] theorem State.setTLast_regs (s : State) (t : Nat) : (s.setTLast t).regs = s.regs := rfl
@[simp] theorem State.setTLast_pc (s : State) (t : Nat) : (s.setTLast t).pc = s.pc := rfl
@[simp] theorem State.setTLast_fl (s : State) (t : Nat) : (s.setTLast t).fl = s.fl := rfl
@[simp] theorem State.setTLast_ie (s : State) (t : Nat) : (s.setTLast t).ie = s.ie := rfl
@[simp] theorem State.setTLast_mem (s : State) (t : Nat) : (s.setTLast t).mem = s.mem := rfl
@[simp] theorem State.setTLast_run (s : State) (t : Nat) : (s.setTLast t).run = s.run := rfl
@[simp] theorem State.setTLast_tLast (s : State) (t : Nat) : (s.setTLast t).tLast = t := rfl
@[simp] theorem State.setTLast_out (s : State) (t : Nat) : (s.setTLast t).out = s.out := rfl
@[simp] theorem State.setTLast_inputs (s : State) (t : Nat) : (s.setTLast t).inputs = s.inputs := rfl
@[simp] theorem State.setTLast_samples (s : State) (t : Nat) : (s.setTLast t).samples = s.samples := rfl
@[simp] theorem State.setTLast_reg (s : State) (t : Nat) (k : RegIndex) : (s.setTLast t).reg k = s.reg k := rfl
@[simp] theorem State.setTLast_memRead (s : State) (t : Nat) (k : Byte) : (s.setTLast t).memRead k = s.memRead k := rfl

/-! ### setInputs -/

@[simp] theorem State.setInputs_regs (s : State) (l : List CycleInput) : (s.setInputs l).regs = s.regs := rfl
@[simp] theorem State.setInputs_pc (s : State) (l : List CycleInput) : (s.setInputs l).pc = s.pc := rfl
@[simp] theorem State.setInputs_fl (s : State) (l : List CycleInput) : (s.setInputs l).fl = s.fl := rfl
@[simp] theorem State.setInputs_ie (s : State) (l : List CycleInput) : (s.setInputs l).ie = s.ie := rfl
@[simp] theorem State.setInputs_mem (s : State) (l : List CycleInput) : (s.setInputs l).mem = s.mem := rfl
@[simp] theorem State.setInputs_run (s : State) (l : List CycleInput) : (s.setInputs l).run = s.run := rfl
@[simp] theorem State.setInputs_tLast (s : State) (l : List CycleInput) : (s.setInputs l).tLast = s.tLast := rfl
@[simp] theorem State.setInputs_out (s : State) (l : List CycleInput) : (s.setInputs l).out = s.out := rfl
@[simp] theorem State.setInputs_inputs (s : State) (l : List CycleInput) : (s.setInputs l).inputs = l := rfl
@[simp] theorem State.setInputs_samples (s : State) (l : List CycleInput) : (s.setInputs l).samples = s.samples := rfl
@[simp] theorem State.setInputs_reg (s : State) (l : List CycleInput) (k : RegIndex) : (s.setInputs l).reg k = s.reg k := rfl
@[simp] theorem State.setInputs_memRead (s : State) (l : List CycleInput) (k : Byte) : (s.setInputs l).memRead k = s.memRead k := rfl

/-! ### setSamples -/

@[simp] theorem State.setSamples_regs (s : State) (n : Nat) : (s.setSamples n).regs = s.regs := rfl
@[simp] theorem State.setSamples_pc (s : State) (n : Nat) : (s.setSamples n).pc = s.pc := rfl
@[simp] theorem State.setSamples_fl (s : State) (n : Nat) : (s.setSamples n).fl = s.fl := rfl
@[simp] theorem State.setSamples_ie (s : State) (n : Nat) : (s.setSamples n).ie = s.ie := rfl
@[simp] theorem State.setSamples_mem (s : State) (n : Nat) : (s.setSamples n).mem = s.mem := rfl
@[simp] theorem State.setSamples_run (s : State) (n : Nat) : (s.setSamples n).run = s.run := rfl
@[simp] theorem State.setSamples_tLast (s : State) (n : Nat) : (s.setSamples n).tLast = s.tLast := rfl
@[simp] theorem State.setSamples_out (s : State) (n : Nat) : (s.setSamples n).out = s.out := rfl
@[simp] theorem State.setSamples_inputs (s : State) (n : Nat) : (s.setSamples n).inputs = s.inputs := rfl
@[simp] theorem State.setSamples_samples (s : State) (n : Nat) : (s.setSamples n).samples = n := rfl
@[simp] theorem State.setSamples_reg (s : State) (n : Nat) (k : RegIndex) : (s.setSamples n).reg k = s.reg k := rfl
@[simp] theorem State.setSamples_memRead (s : State) (n : Nat) (k : Byte) : (s.setSamples n).memRead k = s.memRead k := rfl

/-! ### emit -/

@[simp] theorem State.emit_regs (s : State) (e : OutEvent) : (s.emit e).regs = s.regs := rfl
@[simp] theorem State.emit_pc (s : State) (e : OutEvent) : (s.emit e).pc = s.pc := rfl
@[simp] theorem State.emit_fl (s : State) (e : OutEvent) : (s.emit e).fl = s.fl := rfl
@[simp] theorem State.emit_ie (s : State) (e : OutEvent) : (s.emit e).ie = s.ie := rfl
@[simp] theorem State.emit_mem (s : State) (e : OutEvent) : (s.emit e).mem = s.mem := rfl
@[simp] theorem State.emit_run (s : State) (e : OutEvent) : (s.emit e).run = s.run := rfl
@[simp] theorem State.emit_tLast (s : State) (e : OutEvent) : (s.emit e).tLast = s.tLast := rfl
@[simp] theorem State.emit_out (s : State) (e : OutEvent) : (s.emit e).out = s.out ++ [e] := rfl
@[simp] theorem State.emit_inputs (s : State) (e : OutEvent) : (s.emit e).inputs = s.inputs := rfl
@[simp] theorem State.emit_samples (s : State) (e : OutEvent) : (s.emit e).samples = s.samples := rfl
@[simp] theorem State.emit_reg (s : State) (e : OutEvent) (k : RegIndex) : (s.emit e).reg k = s.reg k := rfl
@[simp] theorem State.emit_memRead (s : State) (e : OutEvent) (k : Byte) : (s.emit e).memRead k = s.memRead k := rfl

/-! ### memWrite -/

@[simp] theorem State.memWrite_regs (s : State) (a v : Byte) : (s.memWrite a v).regs = s.regs := rfl
@[simp] theorem State.memWrite_pc (s : State) (a v : Byte) : (s.memWrite a v).pc = s.pc := rfl
@[simp] theorem State.memWrite_fl (s : State) (a v : Byte) : (s.memWrite a v).fl = s.fl := rfl
@[simp] theorem State.memWrite_ie (s : State) (a v : Byte) : (s.memWrite a v).ie = s.ie := rfl
@[simp] theorem State.memWrite_mem (s : State) (a v : Byte) : (s.memWrite a v).mem = Memory.write s.mem a.toNat v := rfl
@[simp] theorem State.memWrite_run (s : State) (a v : Byte) : (s.memWrite a v).run = s.run := rfl
@[simp] theorem State.memWrite_tLast (s : State) (a v : Byte) : (s.memWrite a v).tLast = s.tLast := rfl
@[simp] theorem State.memWrite_out (s : State) (a v : Byte) : (s.memWrite a v).out = s.out := rfl
@[simp] theorem State.memWrite_inputs (s : State) (a v : Byte) : (s.memWrite a v).inputs = s.inputs := rfl
@[simp] theorem State.memWrite_samples (s : State) (a v : Byte) : (s.memWrite a v).samples = s.samples := rfl
@[simp] theorem State.memWrite_reg (s : State) (a v : Byte) (k : RegIndex) : (s.memWrite a v).reg k = s.reg k := rfl

/-! ### The register file (10_state.md R10) -/

theorem State.setReg_reg (s : State) (i k : RegIndex) (v : Byte) :
    (s.setReg i v).reg k = if k = i then v else s.reg k := by
  unfold State.reg State.setReg
  by_cases h : k = i
  · subst h; simp
  · have hne : i.val ≠ k.val := fun e => h (Fin.ext e.symm)
    simp [h, hne]

@[simp] theorem State.setReg_reg_same (s : State) (i : RegIndex) (v : Byte) : (s.setReg i v).reg i = v := by
  simp [State.setReg_reg]

theorem State.setReg_reg_other (s : State) {i k : RegIndex} (v : Byte) (h : k ≠ i) :
    (s.setReg i v).reg k = s.reg k := by
  simp [State.setReg_reg, h]

/-- A register written with what it holds is no change. -/
theorem State.setReg_self (s : State) (i : RegIndex) : s.setReg i (s.reg i) = s := by
  simp [State.setReg, State.reg]

/-- Two states with the same registers by reading hold the same register file. -/
theorem State.regs_ext {s t : State} (h : ∀ k : RegIndex, s.reg k = t.reg k) : s.regs = t.regs := by
  apply Vector.ext
  intro n hn
  exact h ⟨n, hn⟩

/-- Two states are equal when their registers read alike and every other field is equal. -/
theorem State.ext_reg {s t : State} (hr : ∀ k : RegIndex, s.reg k = t.reg k) (hpc : s.pc = t.pc) (hfl : s.fl = t.fl)
    (hie : s.ie = t.ie) (hm : s.mem = t.mem) (hrun : s.run = t.run) (ht : s.tLast = t.tLast) (ho : s.out = t.out)
    (hin : s.inputs = t.inputs) (hsa : s.samples = t.samples) : s = t := by
  have h := State.regs_ext hr
  cases s; cases t
  simp_all

end Sys2Proof.Machine
end

