-- ==== Sys2Proof/Laws/Memory.lean ====
section
/-! SUPPORT. What the memory operations do (20_memory.md R31, R32) and that each keeps the canonical form. -/

namespace Sys2Proof.Machine

/-! ### Read after write -/

theorem Memory.read_erase (m : Memory) (a b : Nat) :
    Memory.read (Memory.erase m a) b = if b = a then 0#8 else Memory.read m b := by
  induction m with
  | nil => simp [Memory.erase, Memory.read]
  | cons c cells ih =>
    obtain ⟨k, w⟩ := c
    by_cases hk : k = a
    · by_cases hb : b = a
      · subst hb; simp [Memory.erase, hk, ih]
      · have : ¬ a = b := fun h => hb h.symm
        simp [Memory.erase, Memory.read, hk, ih, hb, this]
    · by_cases hb : k = b
      · have : ¬ b = a := fun h => hk (hb.trans h)
        simp [Memory.erase, Memory.read, hb, this]
      · simp [Memory.erase, Memory.read, hk, hb, ih]

theorem Memory.read_insert_other (m : Memory) {a b : Nat} (v : Byte) (hb : b ≠ a) :
    Memory.read (Memory.insert m a v) b = Memory.read m b := by
  induction m with
  | nil => simp [Memory.insert, Memory.read, Ne.symm hb]
  | cons c cells ih =>
    obtain ⟨k, w⟩ := c
    by_cases hk : k < a
    · simp only [Memory.insert, hk, if_true, Memory.read, ih]
    · simp [Memory.insert, hk, Memory.read, Ne.symm hb]

/-- No listed cell has the address. -/
def Memory.absent (a : Nat) (m : Memory) : Prop := ∀ c ∈ m, c.1 ≠ a

theorem Memory.absent_erase (m : Memory) (a : Nat) : Memory.absent a (Memory.erase m a) := by
  induction m with
  | nil => simp [Memory.absent, Memory.erase]
  | cons c cells ih =>
    obtain ⟨k, w⟩ := c
    by_cases hk : k = a
    · simpa [Memory.erase, hk] using ih
    · simpa [Memory.absent, Memory.erase, hk] using ih

theorem Memory.read_insert_absent {m : Memory} {a : Nat} (v : Byte) (h : Memory.absent a m) :
    Memory.read (Memory.insert m a v) a = v := by
  induction m with
  | nil => simp [Memory.insert, Memory.read]
  | cons c cells ih =>
    obtain ⟨k, w⟩ := c
    have hk : k ≠ a := h (k, w) (by simp)
    have hc : Memory.absent a cells := fun d hd => h d (by simp [hd])
    by_cases hlt : k < a
    · simp [Memory.insert, hlt, Memory.read, hk, ih hc]
    · simp [Memory.insert, hlt, Memory.read]

/-- Reading after a write: the cell written holds the value, every other cell what it held. -/
theorem Memory.read_write (m : Memory) (a b : Nat) (v : Byte) :
    Memory.read (Memory.write m a v) b = if b = a then v else Memory.read m b := by
  unfold Memory.write
  by_cases hv : v = 0#8
  · subst hv; simp [Memory.read_erase]
  · simp only [hv, if_false]
    by_cases hb : b = a
    · subst hb; simp [Memory.read_insert_absent v (Memory.absent_erase m b)]
    · simp [Memory.read_insert_other _ v hb, hb, Memory.read_erase]

/-- 20_memory.md R32, over states. -/
theorem State.memRead_memWrite (s : State) (a b v : Byte) :
    (s.memWrite a v).memRead b = if b = a then v else s.memRead b := by
  simp only [State.memRead, State.memWrite_mem, Memory.read_write, BitVec.toNat_inj]

@[simp] theorem State.memRead_memWrite_same (s : State) (a v : Byte) : (s.memWrite a v).memRead a = v := by
  simp [State.memRead_memWrite]

theorem State.memRead_memWrite_other (s : State) {a b : Byte} (v : Byte) (h : b ≠ a) :
    (s.memWrite a v).memRead b = s.memRead b := by
  simp [State.memRead_memWrite, h]

/-! ### The canonical form -/

theorem Memory.wfFrom_mono {lo lo' : Nat} {m : Memory} (h : Memory.wfFrom lo m = true) (hle : lo' ≤ lo) :
    Memory.wfFrom lo' m = true := by
  cases m with
  | nil => rfl
  | cons c cells =>
    simp only [Memory.wfFrom, Bool.and_eq_true, decide_eq_true_eq] at h ⊢
    exact ⟨⟨⟨by omega, h.1.1.2⟩, h.1.2⟩, h.2⟩

theorem Memory.wfFrom_erase {lo : Nat} {m : Memory} (a : Nat) (h : Memory.wfFrom lo m = true) :
    Memory.wfFrom lo (Memory.erase m a) = true := by
  induction m generalizing lo with
  | nil => rfl
  | cons c cells ih =>
    obtain ⟨k, w⟩ := c
    simp only [Memory.wfFrom, Bool.and_eq_true, decide_eq_true_eq] at h
    by_cases hk : k = a
    · simp only [Memory.erase, hk, if_true]
      exact Memory.wfFrom_mono (ih h.2) (by omega)
    · simp only [Memory.erase, hk, if_false, Memory.wfFrom, Bool.and_eq_true, decide_eq_true_eq]
      exact ⟨h.1, ih h.2⟩

theorem Memory.wfFrom_insert {lo a : Nat} {m : Memory} {v : Byte} (h : Memory.wfFrom lo m = true)
    (hab : Memory.absent a m) (hlo : lo ≤ a) (ha : a < 256) (hv : v ≠ 0#8) :
    Memory.wfFrom lo (Memory.insert m a v) = true := by
  induction m generalizing lo with
  | nil => simpa [Memory.insert, Memory.wfFrom, hlo, ha] using hv
  | cons c cells ih =>
    obtain ⟨k, w⟩ := c
    have hka : k ≠ a := hab (k, w) (by simp)
    have hc : Memory.absent a cells := fun d hd => hab d (by simp [hd])
    simp only [Memory.wfFrom, Bool.and_eq_true, decide_eq_true_eq] at h
    by_cases hk : k < a
    · simp only [Memory.insert, hk, if_true, Memory.wfFrom, Bool.and_eq_true, decide_eq_true_eq]
      exact ⟨h.1, ih h.2 hc (by omega)⟩
    · simp only [Memory.insert, hk, if_false, Memory.wfFrom, Bool.and_eq_true, decide_eq_true_eq]
      exact ⟨⟨⟨hlo, ha⟩, hv⟩, ⟨⟨by omega, h.1.1.2⟩, h.1.2⟩, h.2⟩

/-- A write keeps the canonical form. -/
theorem Memory.wf_write {m : Memory} {a : Nat} (v : Byte) (h : Memory.wf m = true) (ha : a < 256) :
    Memory.wf (Memory.write m a v) = true := by
  unfold Memory.write
  by_cases hv : v = 0#8
  · simp only [hv, if_true]
    exact Memory.wfFrom_erase a h
  · simp only [hv, if_false]
    exact Memory.wfFrom_insert (Memory.wfFrom_erase a h) (Memory.absent_erase m a) (Nat.zero_le a) ha hv

theorem Memory.wf_writeBytes {m : Memory} (a : Nat) (bs : List Byte) (h : Memory.wf m = true) :
    Memory.wf (Memory.writeBytes m a bs) = true := by
  induction bs generalizing m a with
  | nil => exact h
  | cons b bs ih =>
    by_cases ha : a < 256
    · simpa [Memory.writeBytes, ha] using ih (a + 1) (Memory.wf_write b h ha)
    · simpa [Memory.writeBytes, ha] using ih (a + 1) h

theorem State.memWrite_wf {s : State} (a v : Byte) (h : Memory.wf s.mem = true) :
    Memory.wf (s.memWrite a v).mem = true :=
  Memory.wf_write v h a.isLt

theorem State.reset_wf : Memory.wf State.reset.mem = true := rfl

/-! ### Storing consecutive bytes -/

theorem Memory.read_writeBytes_below {m : Memory} {a b : Nat} (bs : List Byte) (h : b < a) :
    Memory.read (Memory.writeBytes m a bs) b = Memory.read m b := by
  induction bs generalizing m a with
  | nil => rfl
  | cons c cs ih =>
    simp only [Memory.writeBytes]
    rw [ih (by omega)]
    have hne : b ≠ a := by omega
    by_cases ha : a < 256
    · simp [ha, Memory.read_write, hne]
    · simp [ha]

theorem Memory.read_writeBytes_above {m : Memory} {a b : Nat} (bs : List Byte) (h : a + bs.length ≤ b) :
    Memory.read (Memory.writeBytes m a bs) b = Memory.read m b := by
  induction bs generalizing m a with
  | nil => rfl
  | cons c cs ih =>
    simp only [List.length_cons] at h
    simp only [Memory.writeBytes]
    rw [ih (by omega)]
    have hne : b ≠ a := by omega
    by_cases ha : a < 256
    · simp [ha, Memory.read_write, hne]
    · simp [ha]

/-- The `k`-th byte stored stands at address `a + k`, where memory reaches that far. -/
theorem Memory.read_writeBytes {m : Memory} {a k : Nat} (bs : List Byte) (hk : k < bs.length) (ha : a + k < 256) :
    Memory.read (Memory.writeBytes m a bs) (a + k) = bs[k] := by
  induction bs generalizing m a k with
  | nil => simp at hk
  | cons c cs ih =>
    cases k with
    | zero =>
      simp only [Memory.writeBytes, Nat.add_zero]
      rw [Memory.read_writeBytes_below cs (Nat.lt_succ_self a)]
      have ha' : a < 256 := by omega
      simp [ha', Memory.read_write]
    | succ k =>
      simp only [Memory.writeBytes]
      have h2 : a + (k + 1) = (a + 1) + k := by omega
      rw [h2, ih (by simpa using hk) (by omega)]
      simp

end Sys2Proof.Machine
end

