-- ==== Sys2Proof/Laws/Operands.lean ====
section
/-! SUPPORT. What each pre-check and each operand form can do (40_execution_cycle.md R74 to R80): the inversion lemmas
`…_next` say all of it, the lemmas `…_pass` and `…_fail` compute one side. -/

namespace Sys2Proof.Machine

theorem Result.next_inj {s t : State} : (Host.Outcome.next s : Result) = .next t ↔ s = t :=
  ⟨fun h => by injection h, fun h => by rw [h]⟩

/-! ### Register operands -/

theorem regByte_toNat (i : RegIndex) : (regByte i).toNat = i.val := by
  have := i.isLt
  simp [regByte]; omega

theorem regIndex?_regByte (i : RegIndex) : regIndex? (regByte i) = some i := by
  have h : (regByte i).toNat < 8 := by rw [regByte_toNat]; exact i.isLt
  simp only [regIndex?, h, dif_pos, Option.some.injEq]
  exact Fin.ext (regByte_toNat i)

theorem regByte_of_lt {o : Byte} (h : o.toNat < 8) : o = regByte ⟨o.toNat, h⟩ := by
  apply BitVec.eq_of_toNat_eq
  rw [regByte_toNat]

theorem regByte_inj {i j : RegIndex} : regByte i = regByte j ↔ i = j := by
  constructor
  · intro h
    have := congrArg BitVec.toNat h
    rw [regByte_toNat, regByte_toNat] at this
    exact Fin.ext this
  · intro h; rw [h]

theorem regIndex?_eq_some {o : Byte} {i : RegIndex} : regIndex? o = some i ↔ o = regByte i := by
  constructor
  · intro h
    unfold regIndex? at h
    split at h
    · rename_i hlt
      injection h with h
      rw [← h]; exact regByte_of_lt hlt
    · exact absurd h (by simp)
  · intro h; rw [h, regIndex?_regByte]

theorem regIndex?_eq_none {o : Byte} : regIndex? o = none ↔ 7 < o.toNat := by
  unfold regIndex?
  by_cases h : o.toNat < 8
  · simp only [h, dif_pos]; constructor
    · intro h'; exact absurd h' (by simp)
    · intro h'; omega
  · simp only [h, dif_neg, not_false_eq_true, true_iff]; omega

/-! ### The checks -/

theorem checkOperands_next {n : Nat} {s t : State} {k : Result} :
    checkOperands n s k = .next t ↔
      (255 < s.pc.toNat + n ∧ s.fault (.outOfRange .operandFetch) = t) ∨ (s.pc.toNat + n ≤ 255 ∧ k = .next t) := by
  unfold checkOperands raise
  by_cases h : 255 < s.pc.toNat + n
  · simp [h]
  · simp [h]; omega

theorem checkOperands_pass {n : Nat} {s : State} {k : Result} (h : s.pc.toNat + n ≤ 255) : checkOperands n s k = k := by
  simp [checkOperands, Nat.not_lt.mpr h]

theorem checkOperands_fail {n : Nat} {s : State} {k : Result} (h : 255 < s.pc.toNat + n) :
    checkOperands n s k = .next (s.fault (.outOfRange .operandFetch)) := by
  simp [checkOperands, raise, h]

theorem checkReg_next {o : Byte} {s t : State} {k : RegIndex → Result} :
    checkReg o s k = .next t ↔
      (7 < o.toNat ∧ s.fault (.outOfRange .registerIndex) = t) ∨ (∃ i, o = regByte i ∧ k i = .next t) := by
  unfold checkReg raise
  cases h : regIndex? o with
  | none =>
    have h7 := regIndex?_eq_none.mp h
    have hno : ∀ i, o ≠ regByte i := fun i e => by rw [e, regIndex?_regByte] at h; exact absurd h (by simp)
    simp [h7, hno]
  | some i =>
    have ho := regIndex?_eq_some.mp h
    have h7 : ¬ 7 < o.toNat := by rw [ho, regByte_toNat]; have := i.isLt; omega
    simp only [h7, false_and, false_or]
    constructor
    · intro hk; exact ⟨i, ho, hk⟩
    · rintro ⟨j, hj, hk⟩
      rw [ho, regByte_inj] at hj
      rw [hj]; exact hk

@[simp] theorem checkReg_pass {i : RegIndex} {s : State} {k : RegIndex → Result} : checkReg (regByte i) s k = k i := by
  simp [checkReg, regIndex?_regByte]

theorem checkReg_fail {o : Byte} {s : State} {k : RegIndex → Result} (h : 7 < o.toNat) :
    checkReg o s k = .next (s.fault (.outOfRange .registerIndex)) := by
  simp [checkReg, regIndex?_eq_none.mpr h, raise]

theorem checkDivisor_next {d : Byte} {s t : State} {k : Result} :
    checkDivisor d s k = .next t ↔ (d = 0#8 ∧ s.fault .arithmeticFault = t) ∨ (d ≠ 0#8 ∧ k = .next t) := by
  unfold checkDivisor raise
  by_cases h : d = 0#8 <;> simp [h]

/-- The successor address as a byte. -/
theorem next_byte (s : State) (n : Nat) : BitVec.ofNat 8 (s.pc.toNat + 1 + n) = s.pc + BitVec.ofNat 8 (1 + n) := by
  apply BitVec.eq_of_toNat_eq
  simp [Nat.add_assoc]

theorem checkNext_next {n : Nat} {s t : State} {k : Byte → Result} :
    checkNext n s k = .next t ↔
      (255 < s.pc.toNat + 1 + n ∧ s.fault (.outOfRange .nextPc) = t) ∨
      (s.pc.toNat + 1 + n ≤ 255 ∧ k (s.pc + BitVec.ofNat 8 (1 + n)) = .next t) := by
  unfold checkNext raise
  rw [next_byte]
  by_cases h : 255 < s.pc.toNat + 1 + n
  · simp [h]
  · simp [h]; omega

theorem checkNext_pass {n : Nat} {s : State} {k : Byte → Result} (h : s.pc.toNat + 1 + n ≤ 255) :
    checkNext n s k = k (s.pc + BitVec.ofNat 8 (1 + n)) := by
  simp only [checkNext, next_byte, Nat.not_lt.mpr h, if_false]

theorem checkNext_fail {n : Nat} {s : State} {k : Byte → Result} (h : 255 < s.pc.toNat + 1 + n) :
    checkNext n s k = .next (s.fault (.outOfRange .nextPc)) := by
  simp [checkNext, raise, h]

/-! ### The forms -/

theorem advance_next {n : Nat} {s t : State} {effect : State → State} :
    advance n s effect = .next t ↔
      (255 < s.pc.toNat + 1 + n ∧ s.fault (.outOfRange .nextPc) = t) ∨
      (s.pc.toNat + 1 + n ≤ 255 ∧ (effect s).setPc (s.pc + BitVec.ofNat 8 (1 + n)) = t) := by
  unfold advance
  rw [checkNext_next]
  simp only [Result.next_inj]

theorem advance_pass {n : Nat} {s : State} {effect : State → State} (h : s.pc.toNat + 1 + n ≤ 255) :
    advance n s effect = .next ((effect s).setPc (s.pc + BitVec.ofNat 8 (1 + n))) := by
  simp only [advance, checkNext_pass h]

theorem formR_next {a : Byte} {s t : State} {k : RegIndex → Result} :
    formR a s k = .next t ↔
      (255 < s.pc.toNat + 1 ∧ s.fault (.outOfRange .operandFetch) = t) ∨
      (s.pc.toNat + 1 ≤ 255 ∧ ((7 < a.toNat ∧ s.fault (.outOfRange .registerIndex) = t) ∨
        ∃ i, a = regByte i ∧ k i = .next t)) := by
  unfold formR
  rw [checkOperands_next, checkReg_next]

theorem formRI_next {a : Byte} {s t : State} {k : RegIndex → Result} :
    formRI a s k = .next t ↔
      (255 < s.pc.toNat + 2 ∧ s.fault (.outOfRange .operandFetch) = t) ∨
      (s.pc.toNat + 2 ≤ 255 ∧ ((7 < a.toNat ∧ s.fault (.outOfRange .registerIndex) = t) ∨
        ∃ i, a = regByte i ∧ k i = .next t)) := by
  unfold formRI
  rw [checkOperands_next, checkReg_next]

theorem formRR_next {a b : Byte} {s t : State} {k : RegIndex → RegIndex → Result} :
    formRR a b s k = .next t ↔
      (255 < s.pc.toNat + 2 ∧ s.fault (.outOfRange .operandFetch) = t) ∨
      (s.pc.toNat + 2 ≤ 255 ∧ ((7 < a.toNat ∧ s.fault (.outOfRange .registerIndex) = t) ∨
        ∃ i, a = regByte i ∧ ((7 < b.toNat ∧ s.fault (.outOfRange .registerIndex) = t) ∨
          ∃ j, b = regByte j ∧ k i j = .next t))) := by
  unfold formRR
  rw [checkOperands_next, checkReg_next]
  simp only [checkReg_next]

theorem formR_pass {i : RegIndex} {s : State} {k : RegIndex → Result} (h : s.pc.toNat + 1 ≤ 255) :
    formR (regByte i) s k = k i := by
  rw [formR, checkOperands_pass h, checkReg_pass]

theorem formRI_pass {i : RegIndex} {s : State} {k : RegIndex → Result} (h : s.pc.toNat + 2 ≤ 255) :
    formRI (regByte i) s k = k i := by
  rw [formRI, checkOperands_pass h, checkReg_pass]

theorem formRR_pass {i j : RegIndex} {s : State} {k : RegIndex → RegIndex → Result} (h : s.pc.toNat + 2 ≤ 255) :
    formRR (regByte i) (regByte j) s k = k i j := by
  rw [formRR, checkOperands_pass h, checkReg_pass, checkReg_pass]

end Sys2Proof.Machine
end

