-- ==== Sys2Proof/Laws/Ops.lean ====
section
/-! SUPPORT. What the stack, the poll, a fault and the interrupt operations do: every field after each of them. -/

namespace Sys2Proof.Machine

/-! ### A fault changes the run status only (60_exceptions.md R160) -/

@[simp] theorem State.fault_regs (s : State) (c : Fault) : (s.fault c).regs = s.regs := rfl
@[simp] theorem State.fault_pc (s : State) (c : Fault) : (s.fault c).pc = s.pc := rfl
@[simp] theorem State.fault_fl (s : State) (c : Fault) : (s.fault c).fl = s.fl := rfl
@[simp] theorem State.fault_ie (s : State) (c : Fault) : (s.fault c).ie = s.ie := rfl
@[simp] theorem State.fault_mem (s : State) (c : Fault) : (s.fault c).mem = s.mem := rfl
@[simp] theorem State.fault_run (s : State) (c : Fault) : (s.fault c).run = .faulted c s.pc (s.memRead s.pc) := rfl
@[simp] theorem State.fault_tLast (s : State) (c : Fault) : (s.fault c).tLast = s.tLast := rfl
@[simp] theorem State.fault_out (s : State) (c : Fault) : (s.fault c).out = s.out := rfl
@[simp] theorem State.fault_inputs (s : State) (c : Fault) : (s.fault c).inputs = s.inputs := rfl
@[simp] theorem State.fault_samples (s : State) (c : Fault) : (s.fault c).samples = s.samples := rfl
@[simp] theorem State.fault_reg (s : State) (c : Fault) (k : RegIndex) : (s.fault c).reg k = s.reg k := rfl
@[simp] theorem State.fault_memRead (s : State) (c : Fault) (a : Byte) : (s.fault c).memRead a = s.memRead a := rfl

/-! ### The stack (42_data_movement.md R120, R121) -/

@[simp] theorem State.decSp_reg (s : State) (k : RegIndex) :
    s.decSp.reg k = if k = SP then s.reg SP - 1 else s.reg k := by
  simp [State.decSp, State.setReg_reg]
@[simp] theorem State.decSp_memRead (s : State) (a : Byte) : s.decSp.memRead a = s.memRead a := rfl
@[simp] theorem State.decSp_pc (s : State) : s.decSp.pc = s.pc := rfl
@[simp] theorem State.decSp_fl (s : State) : s.decSp.fl = s.fl := rfl
@[simp] theorem State.decSp_ie (s : State) : s.decSp.ie = s.ie := rfl
@[simp] theorem State.decSp_mem (s : State) : s.decSp.mem = s.mem := rfl
@[simp] theorem State.decSp_run (s : State) : s.decSp.run = s.run := rfl
@[simp] theorem State.decSp_tLast (s : State) : s.decSp.tLast = s.tLast := rfl
@[simp] theorem State.decSp_out (s : State) : s.decSp.out = s.out := rfl
@[simp] theorem State.decSp_inputs (s : State) : s.decSp.inputs = s.inputs := rfl
@[simp] theorem State.decSp_samples (s : State) : s.decSp.samples = s.samples := rfl

@[simp] theorem State.incSp_reg (s : State) (k : RegIndex) :
    s.incSp.reg k = if k = SP then s.reg SP + 1 else s.reg k := by
  simp [State.incSp, State.setReg_reg]
@[simp] theorem State.incSp_memRead (s : State) (a : Byte) : s.incSp.memRead a = s.memRead a := rfl
@[simp] theorem State.incSp_pc (s : State) : s.incSp.pc = s.pc := rfl
@[simp] theorem State.incSp_fl (s : State) : s.incSp.fl = s.fl := rfl
@[simp] theorem State.incSp_ie (s : State) : s.incSp.ie = s.ie := rfl
@[simp] theorem State.incSp_mem (s : State) : s.incSp.mem = s.mem := rfl
@[simp] theorem State.incSp_run (s : State) : s.incSp.run = s.run := rfl
@[simp] theorem State.incSp_tLast (s : State) : s.incSp.tLast = s.tLast := rfl
@[simp] theorem State.incSp_out (s : State) : s.incSp.out = s.out := rfl
@[simp] theorem State.incSp_inputs (s : State) : s.incSp.inputs = s.inputs := rfl
@[simp] theorem State.incSp_samples (s : State) : s.incSp.samples = s.samples := rfl

@[simp] theorem State.push_reg (s : State) (v : Byte) (k : RegIndex) :
    (s.push v).reg k = if k = SP then s.reg SP - 1 else s.reg k := by
  simp [State.push]
theorem State.push_memRead (s : State) (v a : Byte) :
    (s.push v).memRead a = if a = s.reg SP - 1 then v else s.memRead a := by
  simp [State.push, State.memRead_memWrite]
@[simp] theorem State.push_pc (s : State) (v : Byte) : (s.push v).pc = s.pc := rfl
@[simp] theorem State.push_fl (s : State) (v : Byte) : (s.push v).fl = s.fl := rfl
@[simp] theorem State.push_ie (s : State) (v : Byte) : (s.push v).ie = s.ie := rfl
@[simp] theorem State.push_run (s : State) (v : Byte) : (s.push v).run = s.run := rfl
@[simp] theorem State.push_tLast (s : State) (v : Byte) : (s.push v).tLast = s.tLast := rfl
@[simp] theorem State.push_out (s : State) (v : Byte) : (s.push v).out = s.out := rfl
@[simp] theorem State.push_inputs (s : State) (v : Byte) : (s.push v).inputs = s.inputs := rfl
@[simp] theorem State.push_samples (s : State) (v : Byte) : (s.push v).samples = s.samples := rfl
theorem State.push_wf {s : State} (v : Byte) (h : Memory.wf s.mem = true) : Memory.wf (s.push v).mem = true :=
  State.memWrite_wf (s := s.decSp) _ v h

@[simp] theorem State.popReg_reg (s : State) (i k : RegIndex) :
    (s.popReg i).reg k =
      if k = SP then (if SP = i then s.top else s.reg SP) + 1 else if k = i then s.top else s.reg k := by
  simp [State.popReg, State.setReg_reg]
@[simp] theorem State.popReg_memRead (s : State) (i : RegIndex) (a : Byte) : (s.popReg i).memRead a = s.memRead a := rfl
@[simp] theorem State.popReg_pc (s : State) (i : RegIndex) : (s.popReg i).pc = s.pc := rfl
@[simp] theorem State.popReg_fl (s : State) (i : RegIndex) : (s.popReg i).fl = s.fl := rfl
@[simp] theorem State.popReg_ie (s : State) (i : RegIndex) : (s.popReg i).ie = s.ie := rfl
@[simp] theorem State.popReg_mem (s : State) (i : RegIndex) : (s.popReg i).mem = s.mem := rfl
@[simp] theorem State.popReg_run (s : State) (i : RegIndex) : (s.popReg i).run = s.run := rfl
@[simp] theorem State.popReg_tLast (s : State) (i : RegIndex) : (s.popReg i).tLast = s.tLast := rfl
@[simp] theorem State.popReg_out (s : State) (i : RegIndex) : (s.popReg i).out = s.out := rfl
@[simp] theorem State.popReg_inputs (s : State) (i : RegIndex) : (s.popReg i).inputs = s.inputs := rfl
@[simp] theorem State.popReg_samples (s : State) (i : RegIndex) : (s.popReg i).samples = s.samples := rfl

/-! ### Popping FL and the pc -/

@[simp] theorem State.popFl_reg (s : State) (k : RegIndex) :
    s.popFl.reg k = if k = SP then s.reg SP + 1 else s.reg k := by
  simp [State.popFl]
@[simp] theorem State.popFl_memRead (s : State) (a : Byte) : s.popFl.memRead a = s.memRead a := rfl
@[simp] theorem State.popFl_pc (s : State) : s.popFl.pc = s.pc := rfl
@[simp] theorem State.popFl_fl (s : State) : s.popFl.fl = s.top := rfl
@[simp] theorem State.popFl_ie (s : State) : s.popFl.ie = s.ie := rfl
@[simp] theorem State.popFl_mem (s : State) : s.popFl.mem = s.mem := rfl
@[simp] theorem State.popFl_run (s : State) : s.popFl.run = s.run := rfl
@[simp] theorem State.popFl_tLast (s : State) : s.popFl.tLast = s.tLast := rfl
@[simp] theorem State.popFl_out (s : State) : s.popFl.out = s.out := rfl
@[simp] theorem State.popFl_inputs (s : State) : s.popFl.inputs = s.inputs := rfl
@[simp] theorem State.popFl_samples (s : State) : s.popFl.samples = s.samples := rfl

@[simp] theorem State.popPc_reg (s : State) (k : RegIndex) :
    s.popPc.reg k = if k = SP then s.reg SP + 1 else s.reg k := by
  simp [State.popPc]
@[simp] theorem State.popPc_memRead (s : State) (a : Byte) : s.popPc.memRead a = s.memRead a := rfl
@[simp] theorem State.popPc_pc (s : State) : s.popPc.pc = s.top := rfl
@[simp] theorem State.popPc_fl (s : State) : s.popPc.fl = s.fl := rfl
@[simp] theorem State.popPc_ie (s : State) : s.popPc.ie = s.ie := rfl
@[simp] theorem State.popPc_mem (s : State) : s.popPc.mem = s.mem := rfl
@[simp] theorem State.popPc_run (s : State) : s.popPc.run = s.run := rfl
@[simp] theorem State.popPc_tLast (s : State) : s.popPc.tLast = s.tLast := rfl
@[simp] theorem State.popPc_out (s : State) : s.popPc.out = s.out := rfl
@[simp] theorem State.popPc_inputs (s : State) : s.popPc.inputs = s.inputs := rfl
@[simp] theorem State.popPc_samples (s : State) : s.popPc.samples = s.samples := rfl

/-! ### Pushing a frame and entering an interrupt (60_exceptions.md R179) -/

@[simp] theorem State.pushFrame_pc (s : State) : s.pushFrame.pc = s.pc := rfl
@[simp] theorem State.pushFrame_fl (s : State) : s.pushFrame.fl = s.fl := rfl
@[simp] theorem State.pushFrame_ie (s : State) : s.pushFrame.ie = s.ie := rfl
@[simp] theorem State.pushFrame_run (s : State) : s.pushFrame.run = s.run := rfl
@[simp] theorem State.pushFrame_tLast (s : State) : s.pushFrame.tLast = s.tLast := rfl
@[simp] theorem State.pushFrame_out (s : State) : s.pushFrame.out = s.out := rfl
@[simp] theorem State.pushFrame_inputs (s : State) : s.pushFrame.inputs = s.inputs := rfl
@[simp] theorem State.pushFrame_samples (s : State) : s.pushFrame.samples = s.samples := rfl

theorem State.pushFrame_reg (s : State) (k : RegIndex) :
    s.pushFrame.reg k = if k = SP then s.reg SP - 9 else s.reg k := by
  simp only [State.pushFrame, State.push_reg]
  by_cases h : k = SP
  · simp only [h, if_true]; bv_omega
  · simp [h]

theorem State.pushFrame_wf {s : State} (h : Memory.wf s.mem = true) : Memory.wf s.pushFrame.mem = true := by
  unfold State.pushFrame
  iterate 9 apply State.push_wf
  exact h

/-- Every cell after a frame is pushed: the nine below SP hold what was saved, the last pushed first looked at. -/
theorem State.pushFrame_memRead (s : State) (a : Byte) :
    s.pushFrame.memRead a =
      if a = s.reg SP - 9 then s.reg 6 else if a = s.reg SP - 8 then s.reg 5 else if a = s.reg SP - 7 then s.reg 4
      else if a = s.reg SP - 6 then s.reg 3 else if a = s.reg SP - 5 then s.reg 2 else if a = s.reg SP - 4 then s.reg 1
      else if a = s.reg SP - 3 then s.reg 0 else if a = s.reg SP - 2 then s.fl else if a = s.reg SP - 1 then s.pc
      else s.memRead a := by
  have e : ∀ m n : Byte, s.reg SP - m - n = s.reg SP - (m + n) := fun m n => by bv_omega
  simp only [State.pushFrame, State.push_memRead, State.push_reg, if_true, e]
  rfl

@[simp] theorem State.interruptEntry_fl (s : State) (l : Nat) : (s.interruptEntry l).fl = s.fl := rfl
@[simp] theorem State.interruptEntry_ie (s : State) (l : Nat) : (s.interruptEntry l).ie = false := rfl
@[simp] theorem State.interruptEntry_run (s : State) (l : Nat) : (s.interruptEntry l).run = s.run := rfl
@[simp] theorem State.interruptEntry_tLast (s : State) (l : Nat) : (s.interruptEntry l).tLast = s.tLast := rfl
@[simp] theorem State.interruptEntry_out (s : State) (l : Nat) : (s.interruptEntry l).out = s.out := rfl
@[simp] theorem State.interruptEntry_inputs (s : State) (l : Nat) : (s.interruptEntry l).inputs = s.inputs := rfl
@[simp] theorem State.interruptEntry_samples (s : State) (l : Nat) : (s.interruptEntry l).samples = s.samples := rfl

theorem State.interruptEntry_wf {s : State} (l : Nat) (h : Memory.wf s.mem = true) :
    Memory.wf (s.interruptEntry l).mem = true :=
  State.pushFrame_wf (s := (s.setIe false).clearLine l) h

/-! ### The return from an interrupt (44_system.md R148) -/

@[simp] theorem State.interruptReturn_ie (s : State) : s.interruptReturn.ie = true := rfl
@[simp] theorem State.interruptReturn_mem (s : State) : s.interruptReturn.mem = s.mem := by simp [State.interruptReturn]
@[simp] theorem State.interruptReturn_memRead (s : State) (a : Byte) : s.interruptReturn.memRead a = s.memRead a := by
  simp [State.interruptReturn]
@[simp] theorem State.interruptReturn_run (s : State) : s.interruptReturn.run = s.run := by simp [State.interruptReturn]
@[simp] theorem State.interruptReturn_tLast (s : State) : s.interruptReturn.tLast = s.tLast := by
  simp [State.interruptReturn]
@[simp] theorem State.interruptReturn_out (s : State) : s.interruptReturn.out = s.out := by simp [State.interruptReturn]
@[simp] theorem State.interruptReturn_inputs (s : State) : s.interruptReturn.inputs = s.inputs := by
  simp [State.interruptReturn]
@[simp] theorem State.interruptReturn_samples (s : State) : s.interruptReturn.samples = s.samples := by
  simp [State.interruptReturn]

theorem State.interruptReturn_fl (s : State) : s.interruptReturn.fl = s.memRead (s.reg SP + 7) := by
  have e : ∀ m n : Byte, s.reg 7 + m + n = s.reg 7 + (m + n) := fun m n => by bv_omega
  simp [State.interruptReturn, State.top, SP, e]

theorem State.interruptReturn_pc (s : State) : s.interruptReturn.pc = s.memRead (s.reg SP + 8) := by
  have e : ∀ m n : Byte, s.reg 7 + m + n = s.reg 7 + (m + n) := fun m n => by bv_omega
  simp [State.interruptReturn, State.top, SP, e]

/-- Register `k` comes from the cell `6 - k` above SP; SP ends nine higher. -/
theorem State.interruptReturn_reg (s : State) (k : RegIndex) :
    s.interruptReturn.reg k =
      if k = SP then s.reg SP + 9 else s.memRead (s.reg SP + BitVec.ofNat 8 (6 - k.val)) := by
  have e : ∀ m n : Byte, s.reg 7 + m + n = s.reg 7 + (m + n) := fun m n => by bv_omega
  fin_cases k <;> simp [State.interruptReturn, State.top, SP, e]

/-! ### The bits of a line -/

theorem bitMask_bit (l k : Nat) (hk : k < 8) : (bitMask l).getLsbD k = decide (k = l) := by
  unfold bitMask
  by_cases h : k = l
  · subst h; simp [hk]
  · by_cases hlt : k < l
    · simp [hlt, h]
    · have : k - l ≠ 0 := by omega
      simp [hk, hlt, h, this]

/-! ### The poll (40_execution_cycle.md R71) -/

theorem State.raiseLine_reg (s : State) (l : Nat) (k : RegIndex) :
    (s.raiseLine l).reg k = if k = IS then s.reg IS ||| bitMask l else s.reg k := by
  simp [State.raiseLine, State.setReg_reg]
@[simp] theorem State.raiseLine_pc (s : State) (l : Nat) : (s.raiseLine l).pc = s.pc := rfl
@[simp] theorem State.raiseLine_fl (s : State) (l : Nat) : (s.raiseLine l).fl = s.fl := rfl
@[simp] theorem State.raiseLine_ie (s : State) (l : Nat) : (s.raiseLine l).ie = s.ie := rfl
@[simp] theorem State.raiseLine_run (s : State) (l : Nat) : (s.raiseLine l).run = s.run := rfl
@[simp] theorem State.raiseLine_tLast (s : State) (l : Nat) : (s.raiseLine l).tLast = s.tLast := rfl
@[simp] theorem State.raiseLine_out (s : State) (l : Nat) : (s.raiseLine l).out = s.out := rfl
@[simp] theorem State.raiseLine_inputs (s : State) (l : Nat) : (s.raiseLine l).inputs = s.inputs := rfl
@[simp] theorem State.raiseLine_samples (s : State) (l : Nat) : (s.raiseLine l).samples = s.samples := rfl
@[simp] theorem State.raiseLine_mem (s : State) (l : Nat) : (s.raiseLine l).mem = s.mem := rfl
@[simp] theorem State.raiseLine_memRead (s : State) (l : Nat) (a : Byte) : (s.raiseLine l).memRead a = s.memRead a := rfl

@[simp] theorem State.pollKey_pc (s : State) (k : Option Byte) : (s.pollKey k).pc = s.pc := by cases k <;> rfl
@[simp] theorem State.pollKey_fl (s : State) (k : Option Byte) : (s.pollKey k).fl = s.fl := by cases k <;> rfl
@[simp] theorem State.pollKey_ie (s : State) (k : Option Byte) : (s.pollKey k).ie = s.ie := by cases k <;> rfl
@[simp] theorem State.pollKey_run (s : State) (k : Option Byte) : (s.pollKey k).run = s.run := by cases k <;> rfl
@[simp] theorem State.pollKey_tLast (s : State) (k : Option Byte) : (s.pollKey k).tLast = s.tLast := by cases k <;> rfl
@[simp] theorem State.pollKey_out (s : State) (k : Option Byte) : (s.pollKey k).out = s.out := by cases k <;> rfl
@[simp] theorem State.pollKey_inputs (s : State) (k : Option Byte) : (s.pollKey k).inputs = s.inputs := by cases k <;> rfl
@[simp] theorem State.pollKey_samples (s : State) (k : Option Byte) : (s.pollKey k).samples = s.samples := by cases k <;> rfl
theorem State.pollKey_reg (s : State) (key : Option Byte) (k : RegIndex) :
    (s.pollKey key).reg k =
      if k = IS then s.reg IS ||| (if key.isSome then bitMask cfg.inputLine else 0#8) else s.reg k := by
  cases key <;> by_cases h : k = IS <;> simp [State.pollKey, State.raiseLine_reg, h]
theorem State.pollKey_memRead (s : State) (key : Option Byte) (a : Byte) :
    (s.pollKey key).memRead a =
      (match key with
        | some b => if a = cfg.keyAddr then b else s.memRead a
        | none => s.memRead a) := by
  cases key <;> simp [State.pollKey, State.memRead_memWrite]
theorem State.pollKey_wf {s : State} (key : Option Byte) (h : Memory.wf s.mem = true) :
    Memory.wf (s.pollKey key).mem = true := by
  cases key with
  | none => exact h
  | some b => exact State.memWrite_wf cfg.keyAddr b h

@[simp] theorem State.pollTimer_pc (s : State) (n : Nat) : (s.pollTimer n).pc = s.pc := by
  unfold State.pollTimer; split <;> rfl
@[simp] theorem State.pollTimer_fl (s : State) (n : Nat) : (s.pollTimer n).fl = s.fl := by
  unfold State.pollTimer; split <;> rfl
@[simp] theorem State.pollTimer_ie (s : State) (n : Nat) : (s.pollTimer n).ie = s.ie := by
  unfold State.pollTimer; split <;> rfl
@[simp] theorem State.pollTimer_run (s : State) (n : Nat) : (s.pollTimer n).run = s.run := by
  unfold State.pollTimer; split <;> rfl
@[simp] theorem State.pollTimer_out (s : State) (n : Nat) : (s.pollTimer n).out = s.out := by
  unfold State.pollTimer; split <;> rfl
@[simp] theorem State.pollTimer_inputs (s : State) (n : Nat) : (s.pollTimer n).inputs = s.inputs := by
  unfold State.pollTimer; split <;> rfl
@[simp] theorem State.pollTimer_samples (s : State) (n : Nat) : (s.pollTimer n).samples = s.samples := by
  unfold State.pollTimer; split <;> rfl
@[simp] theorem State.pollTimer_mem (s : State) (n : Nat) : (s.pollTimer n).mem = s.mem := by
  unfold State.pollTimer; split <;> rfl
@[simp] theorem State.pollTimer_memRead (s : State) (n : Nat) (a : Byte) : (s.pollTimer n).memRead a = s.memRead a := by
  unfold State.pollTimer; split <;> rfl
theorem State.pollTimer_reg (s : State) (n : Nat) (k : RegIndex) :
    (s.pollTimer n).reg k =
      if k = IS then s.reg IS ||| (if s.tick n then bitMask cfg.timerLine else 0#8) else s.reg k := by
  unfold State.pollTimer
  by_cases h : k = IS <;> cases ht : s.tick n <;> simp [State.raiseLine_reg, h]
theorem State.pollTimer_tLast (s : State) (n : Nat) : (s.pollTimer n).tLast = if s.tick n then n else s.tLast := by
  unfold State.pollTimer; split <;> rfl

theorem State.tick_pollKey (s : State) (key : Option Byte) (n : Nat) : (s.pollKey key).tick n = s.tick n := by
  simp [State.tick]

/-! ### Consuming a sample -/

@[simp] theorem State.takeSample_regs (s : State) : s.takeSample.regs = s.regs := rfl
@[simp] theorem State.takeSample_pc (s : State) : s.takeSample.pc = s.pc := rfl
@[simp] theorem State.takeSample_fl (s : State) : s.takeSample.fl = s.fl := rfl
@[simp] theorem State.takeSample_ie (s : State) : s.takeSample.ie = s.ie := rfl
@[simp] theorem State.takeSample_mem (s : State) : s.takeSample.mem = s.mem := rfl
@[simp] theorem State.takeSample_run (s : State) : s.takeSample.run = s.run := rfl
@[simp] theorem State.takeSample_tLast (s : State) : s.takeSample.tLast = s.tLast := rfl
@[simp] theorem State.takeSample_out (s : State) : s.takeSample.out = s.out := rfl
@[simp] theorem State.takeSample_inputs (s : State) : s.takeSample.inputs = s.inputs.tail := rfl
@[simp] theorem State.takeSample_samples (s : State) : s.takeSample.samples = s.samples + 1 := rfl
@[simp] theorem State.takeSample_reg (s : State) (k : RegIndex) : s.takeSample.reg k = s.reg k := rfl
@[simp] theorem State.takeSample_memRead (s : State) (a : Byte) : s.takeSample.memRead a = s.memRead a := rfl
@[simp] theorem State.takeSample_tick (s : State) (n : Nat) : s.takeSample.tick n = s.tick n := rfl

@[simp] theorem State.setTLast_nextInput (s : State) (t : Nat) : (s.setTLast t).nextInput = s.nextInput := rfl
@[simp] theorem State.setIe_nextInput (s : State) (v : Bool) : (s.setIe v).nextInput = s.nextInput := rfl

theorem State.nextInput_listed {s : State} {i : CycleInput} {rest : List CycleInput} (h : s.inputs = i :: rest) :
    s.nextInput = i := by
  simp [State.nextInput, h]

theorem State.nextInput_free {s : State} (h : s.inputs = []) :
    s.nextInput = { key := Config.freeKey s.samples, now := Config.freeNow s.samples } := by
  simp [State.nextInput, h]

@[simp] theorem State.poll_pc (s : State) : s.poll.pc = s.pc := by simp [State.poll]
@[simp] theorem State.poll_fl (s : State) : s.poll.fl = s.fl := by simp [State.poll]
@[simp] theorem State.poll_ie (s : State) : s.poll.ie = s.ie := by simp [State.poll]
@[simp] theorem State.poll_run (s : State) : s.poll.run = s.run := by simp [State.poll]
@[simp] theorem State.poll_out (s : State) : s.poll.out = s.out := by simp [State.poll]
@[simp] theorem State.poll_inputs (s : State) : s.poll.inputs = s.inputs.tail := by simp [State.poll]
@[simp] theorem State.poll_samples (s : State) : s.poll.samples = s.samples + 1 := by simp [State.poll]

theorem State.poll_tLast (s : State) :
    s.poll.tLast = if s.tick s.nextInput.now then s.nextInput.now else s.tLast := by
  rw [State.poll, State.pollTimer_tLast, State.tick_pollKey, State.takeSample_tick]
  simp

theorem State.poll_memRead (s : State) (a : Byte) :
    s.poll.memRead a =
      (match s.nextInput.key with
        | some b => if a = cfg.keyAddr then b else s.memRead a
        | none => s.memRead a) := by
  rw [State.poll, State.pollTimer_memRead, State.pollKey_memRead]; rfl

theorem State.poll_reg (s : State) (k : RegIndex) :
    s.poll.reg k =
      if k = IS then
        (s.reg IS ||| (if s.nextInput.key.isSome then bitMask cfg.inputLine else 0#8)) |||
          (if s.tick s.nextInput.now then bitMask cfg.timerLine else 0#8)
      else s.reg k := by
  rw [State.poll, State.pollTimer_reg, State.tick_pollKey, State.takeSample_tick]
  by_cases h : k = IS <;> simp [State.pollKey_reg, h]

theorem State.poll_wf {s : State} (h : Memory.wf s.mem = true) : Memory.wf s.poll.mem = true := by
  rw [State.poll, State.pollTimer_mem]
  exact State.pollKey_wf _ h

end Sys2Proof.Machine
end

