-- ==== Sys2Proof/Laws/Exec.lean ====
section
/-! SUPPORT. What an instruction can do when it answers a next state, said once for every instruction (`exec_next`): a
fault with its reason (40_execution_cycle.md R74), or its effect with the pc moved on. -/

namespace Sys2Proof.Machine

/-- Why a form of `n` operand bytes faults before its effect, in the order of the checks; `bad` says that a register operand
is above 7, `need` that the successor address is asked for. -/
def FormFault (n : Nat) (bad need : Prop) (s : State) : Fault → Prop
  | .decodeFailure => False
  | .arithmeticFault => False
  | .outOfRange .operandFetch => 255 < s.pc.toNat + n
  | .outOfRange .registerIndex => s.pc.toNat + n ≤ 255 ∧ bad
  | .outOfRange .nextPc => s.pc.toNat + n = 255 ∧ ¬ bad ∧ need

theorem not_bad_regByte {a : Byte} {i : RegIndex} (h : a = regByte i) : ¬ 7 < a.toNat := by
  rw [h, regByte_toNat]; have := i.isLt; omega

theorem not_bad_regBytes {a b : Byte} {i j : RegIndex} (ha : a = regByte i) (hb : b = regByte j) :
    ¬ (7 < a.toNat ∨ 7 < b.toNat) := not_or.mpr ⟨not_bad_regByte ha, not_bad_regByte hb⟩

/-! ### The shapes -/

theorem formR_advance_next {a : Byte} {s t : State} {e : RegIndex → State → State}
    (h : formR a s (fun i => advance 1 s (e i)) = .next t) :
    (∃ c, FormFault 1 (7 < a.toNat) True s c ∧ s.fault c = t) ∨
      ∃ i, a = regByte i ∧ s.pc.toNat + 2 ≤ 255 ∧ (e i s).setPc (s.pc + 2) = t := by
  rcases formR_next.mp h with ⟨ho, h⟩ | ⟨ho, ⟨hr, h⟩ | ⟨i, ha, h⟩⟩
  · exact .inl ⟨.outOfRange .operandFetch, ho, h⟩
  · exact .inl ⟨.outOfRange .registerIndex, ⟨ho, hr⟩, h⟩
  · rcases advance_next.mp h with ⟨hp, h⟩ | ⟨hp, h⟩
    · exact .inl ⟨.outOfRange .nextPc, ⟨by omega, not_bad_regByte ha, trivial⟩, h⟩
    · exact .inr ⟨i, ha, hp, h⟩

theorem formRI_advance_next {a : Byte} {s t : State} {e : RegIndex → State → State}
    (h : formRI a s (fun i => advance 2 s (e i)) = .next t) :
    (∃ c, FormFault 2 (7 < a.toNat) True s c ∧ s.fault c = t) ∨
      ∃ i, a = regByte i ∧ s.pc.toNat + 3 ≤ 255 ∧ (e i s).setPc (s.pc + 3) = t := by
  rcases formRI_next.mp h with ⟨ho, h⟩ | ⟨ho, ⟨hr, h⟩ | ⟨i, ha, h⟩⟩
  · exact .inl ⟨.outOfRange .operandFetch, ho, h⟩
  · exact .inl ⟨.outOfRange .registerIndex, ⟨ho, hr⟩, h⟩
  · rcases advance_next.mp h with ⟨hp, h⟩ | ⟨hp, h⟩
    · exact .inl ⟨.outOfRange .nextPc, ⟨by omega, not_bad_regByte ha, trivial⟩, h⟩
    · exact .inr ⟨i, ha, hp, h⟩

theorem formRR_advance_next {a b : Byte} {s t : State} {e : RegIndex → RegIndex → State → State}
    (h : formRR a b s (fun i j => advance 2 s (e i j)) = .next t) :
    (∃ c, FormFault 2 (7 < a.toNat ∨ 7 < b.toNat) True s c ∧ s.fault c = t) ∨
      ∃ i j, a = regByte i ∧ b = regByte j ∧ s.pc.toNat + 3 ≤ 255 ∧ (e i j s).setPc (s.pc + 3) = t := by
  rcases formRR_next.mp h with ⟨ho, h⟩ | ⟨ho, ⟨hr, h⟩ | ⟨i, ha, ⟨hr, h⟩ | ⟨j, hb, h⟩⟩⟩
  · exact .inl ⟨.outOfRange .operandFetch, ho, h⟩
  · exact .inl ⟨.outOfRange .registerIndex, ⟨ho, .inl hr⟩, h⟩
  · exact .inl ⟨.outOfRange .registerIndex, ⟨ho, .inr hr⟩, h⟩
  · rcases advance_next.mp h with ⟨hp, h⟩ | ⟨hp, h⟩
    · exact .inl ⟨.outOfRange .nextPc, ⟨by omega, not_bad_regBytes ha hb, trivial⟩, h⟩
    · exact .inr ⟨i, j, ha, hb, hp, h⟩

theorem aluDivRR_next {f : Byte → Byte → Byte} {a b : Byte} {s t : State} (h : aluDivRR f a b s = .next t) :
    (∃ c, FormFault 2 (7 < a.toNat ∨ 7 < b.toNat) (∃ j, b = regByte j ∧ s.reg j ≠ 0#8) s c ∧ s.fault c = t) ∨
      (∃ i j, a = regByte i ∧ b = regByte j ∧ s.reg j = 0#8 ∧ s.fault .arithmeticFault = t) ∨
      ∃ i j, a = regByte i ∧ b = regByte j ∧ s.reg j ≠ 0#8 ∧ s.pc.toNat + 3 ≤ 255 ∧
        (s.setReg i (f (s.reg i) (s.reg j))).setPc (s.pc + 3) = t := by
  rcases formRR_next.mp h with ⟨ho, h⟩ | ⟨ho, ⟨hr, h⟩ | ⟨i, ha, ⟨hr, h⟩ | ⟨j, hb, h⟩⟩⟩
  · exact .inl ⟨.outOfRange .operandFetch, ho, h⟩
  · exact .inl ⟨.outOfRange .registerIndex, ⟨ho, .inl hr⟩, h⟩
  · exact .inl ⟨.outOfRange .registerIndex, ⟨ho, .inr hr⟩, h⟩
  · rcases checkDivisor_next.mp h with ⟨hd, h⟩ | ⟨hd, h⟩
    · exact .inr (.inl ⟨i, j, ha, hb, hd, h⟩)
    · rcases advance_next.mp h with ⟨hp, h⟩ | ⟨hp, h⟩
      · exact .inl ⟨.outOfRange .nextPc, ⟨by omega, not_bad_regBytes ha hb, ⟨j, hb, hd⟩⟩, h⟩
      · exact .inr (.inr ⟨i, j, ha, hb, hd, hp, h⟩)

theorem jumpIf_next {cond : Byte → Bool} {a : Byte} {s t : State} (h : jumpIf cond a s = .next t) :
    (∃ c, FormFault 1 (7 < a.toNat) (cond s.fl = false) s c ∧ s.fault c = t) ∨
      ∃ i, a = regByte i ∧ ((cond s.fl = true ∧ s.setPc (s.reg i) = t) ∨
        (cond s.fl = false ∧ s.pc.toNat + 2 ≤ 255 ∧ s.setPc (s.pc + 2) = t)) := by
  rcases formR_next.mp h with ⟨ho, h⟩ | ⟨ho, ⟨hr, h⟩ | ⟨i, ha, h⟩⟩
  · exact .inl ⟨.outOfRange .operandFetch, ho, h⟩
  · exact .inl ⟨.outOfRange .registerIndex, ⟨ho, hr⟩, h⟩
  · cases hc : cond s.fl with
    | true =>
      rw [hc, if_pos rfl, Result.next_inj] at h
      exact .inr ⟨i, ha, .inl ⟨rfl, h⟩⟩
    | false =>
      rw [hc, if_neg (by simp)] at h
      rcases checkNext_next.mp h with ⟨hp, h⟩ | ⟨hp, h⟩
      · exact .inl ⟨.outOfRange .nextPc, ⟨by omega, not_bad_regByte ha, rfl⟩, h⟩
      · exact .inr ⟨i, ha, .inr ⟨rfl, hp, Result.next_inj.mp h⟩⟩

theorem execCall_next {a : Byte} {s t : State} (h : execCall a s = .next t) :
    (∃ c, FormFault 1 (7 < a.toNat) True s c ∧ s.fault c = t) ∨
      ∃ i, a = regByte i ∧ s.pc.toNat + 2 ≤ 255 ∧ (s.push (s.pc + 2)).setPc (s.decSp.reg i) = t := by
  rcases formR_next.mp h with ⟨ho, h⟩ | ⟨ho, ⟨hr, h⟩ | ⟨i, ha, h⟩⟩
  · exact .inl ⟨.outOfRange .operandFetch, ho, h⟩
  · exact .inl ⟨.outOfRange .registerIndex, ⟨ho, hr⟩, h⟩
  · rcases checkNext_next.mp h with ⟨hp, h⟩ | ⟨hp, h⟩
    · exact .inl ⟨.outOfRange .nextPc, ⟨by omega, not_bad_regByte ha, trivial⟩, h⟩
    · exact .inr ⟨i, ha, hp, Result.next_inj.mp h⟩

theorem execJmp_next {a : Byte} {s t : State} (h : execJmp a s = .next t) :
    (∃ c, FormFault 1 (7 < a.toNat) False s c ∧ s.fault c = t) ∨ ∃ i, a = regByte i ∧ s.setPc (s.reg i) = t := by
  rcases formR_next.mp h with ⟨ho, h⟩ | ⟨ho, ⟨hr, h⟩ | ⟨i, ha, h⟩⟩
  · exact .inl ⟨.outOfRange .operandFetch, ho, h⟩
  · exact .inl ⟨.outOfRange .registerIndex, ⟨ho, hr⟩, h⟩
  · exact .inr ⟨i, ha, Result.next_inj.mp h⟩

/-! ### All instructions -/

/-- Why an instruction faults: the checks of 40_execution_cycle.md R74, the first that fails. -/
def InstrFault (i : Instr) (s : State) : Fault → Prop
  | .decodeFailure => False
  | .arithmeticFault => i.wellFormed = true ∧ dividesByZero i s
  | .outOfRange .operandFetch => 255 < s.pc.toNat + operandCount i.opcode
  | .outOfRange .registerIndex => s.pc.toNat + operandCount i.opcode ≤ 255 ∧ i.wellFormed = false
  | .outOfRange .nextPc => i.wellFormed = true ∧ ¬ dividesByZero i s ∧ s.pc.toNat + operandCount i.opcode = 255 ∧
      needsNext i s

/-- One register operand `a`, the effect `e`, and the pc moved past the two bytes. -/
def EffectR (a : Byte) (e : RegIndex → State) (s t : State) : Prop :=
  ∃ i, a = regByte i ∧ s.pc.toNat + 2 ≤ 255 ∧ (e i).setPc (s.pc + 2) = t
/-- One register operand and an immediate. -/
def EffectRI (a : Byte) (e : RegIndex → State) (s t : State) : Prop :=
  ∃ i, a = regByte i ∧ s.pc.toNat + 3 ≤ 255 ∧ (e i).setPc (s.pc + 3) = t
/-- Two register operands. -/
def EffectRR (a b : Byte) (e : RegIndex → RegIndex → State) (s t : State) : Prop :=
  ∃ i j, a = regByte i ∧ b = regByte j ∧ s.pc.toNat + 3 ≤ 255 ∧ (e i j).setPc (s.pc + 3) = t
/-- A conditional jump, taken or not. -/
def EffectJ (cond : Byte → Bool) (a : Byte) (s t : State) : Prop :=
  ∃ i, a = regByte i ∧ ((cond s.fl = true ∧ s.setPc (s.reg i) = t) ∨
    (cond s.fl = false ∧ s.pc.toNat + 2 ≤ 255 ∧ s.setPc (s.pc + 2) = t))

/-- What each instruction does when it does not fault. -/
def Effect (i : Instr) (s t : State) : Prop :=
  match i with
  | .hlt => s.setRun .halted = t
  | .ret => s.popPc = t
  | .iret => s.interruptReturn = t
  | .push a => EffectR a (fun i => s.push (s.decSp.reg i)) s t
  | .pop a => EffectR a (fun i => s.popReg i) s t
  | .prn a => EffectR a (fun i => s.emit (.num (s.reg i))) s t
  | .pra a => EffectR a (fun i => s.emit (.chr (s.reg i))) s t
  | .call a => ∃ i, a = regByte i ∧ s.pc.toNat + 2 ≤ 255 ∧ (s.push (s.pc + 2)).setPc (s.decSp.reg i) = t
  | .jmp a => ∃ i, a = regByte i ∧ s.setPc (s.reg i) = t
  | .jeq a => EffectJ condEQ a s t
  | .jne a => EffectJ condNE a s t
  | .jgt a => EffectJ condGT a s t
  | .jlt a => EffectJ condLT a s t
  | .jle a => EffectJ condLE a s t
  | .jge a => EffectJ condGE a s t
  | .inc a => EffectR a (fun i => s.setReg i (aluInc (s.reg i))) s t
  | .dec a => EffectR a (fun i => s.setReg i (aluDec (s.reg i))) s t
  | .not a => EffectR a (fun i => s.setReg i (aluNot (s.reg i))) s t
  | .ldi a imm => EffectRI a (fun i => s.setReg i imm) s t
  | .ld a b => EffectRR a b (fun i j => s.setReg i (s.memRead (s.reg j))) s t
  | .st a b => EffectRR a b (fun i j => s.memWrite (s.reg i) (s.reg j)) s t
  | .add a b => EffectRR a b (fun i j => s.setReg i (aluAdd (s.reg i) (s.reg j))) s t
  | .sub a b => EffectRR a b (fun i j => s.setReg i (aluSub (s.reg i) (s.reg j))) s t
  | .mul a b => EffectRR a b (fun i j => s.setReg i (aluMul (s.reg i) (s.reg j))) s t
  | .div a b => EffectRR a b (fun i j => s.setReg i (aluDiv (s.reg i) (s.reg j))) s t
  | .mod a b => EffectRR a b (fun i j => s.setReg i (aluMod (s.reg i) (s.reg j))) s t
  | .cmp a b => EffectRR a b (fun i j => s.setFl (compareFlags (s.reg i) (s.reg j))) s t
  | .and a b => EffectRR a b (fun i j => s.setReg i (aluAnd (s.reg i) (s.reg j))) s t
  | .or a b => EffectRR a b (fun i j => s.setReg i (aluOr (s.reg i) (s.reg j))) s t
  | .xor a b => EffectRR a b (fun i j => s.setReg i (aluXor (s.reg i) (s.reg j))) s t
  | .shl a b => EffectRR a b (fun i j => s.setReg i (aluShl (s.reg i) (s.reg j))) s t
  | .shr a b => EffectRR a b (fun i j => s.setReg i (aluShr (s.reg i) (s.reg j))) s t
  | .addi a imm => EffectRI a (fun i => s.setReg i (aluAdd (s.reg i) imm)) s t

/-- A fault of a form is one of the instruction that has the form. -/
theorem FormFault.instr {i : Instr} {n : Nat} {bad need : Prop} {s t : State} (hn : operandCount i.opcode = n)
    (hb : bad ↔ i.wellFormed = false) (hneed : need → needsNext i s ∧ ¬ dividesByZero i s)
    (h : ∃ c, FormFault n bad need s c ∧ s.fault c = t) : ∃ c, InstrFault i s c ∧ s.fault c = t := by
  obtain ⟨c, hc, h⟩ := h
  refine ⟨c, ?_, h⟩
  subst hn
  match c, hc with
  | .outOfRange .operandFetch, hc => exact hc
  | .outOfRange .registerIndex, ⟨ho, hr⟩ => exact ⟨ho, hb.mp hr⟩
  | .outOfRange .nextPc, ⟨hp, hr, hq⟩ =>
    exact ⟨by simpa using mt hb.mpr hr, (hneed hq).2, hp, (hneed hq).1⟩

theorem regOperandOk_eq_false {o : Byte} : 7 < o.toNat ↔ regOperandOk o = false := by
  unfold regOperandOk; simp; omega

theorem two_regOperandOk {a b : Byte} : 7 < a.toNat ∨ 7 < b.toNat ↔ (regOperandOk a && regOperandOk b) = false := by
  rw [Bool.and_eq_false_iff, regOperandOk_eq_false, regOperandOk_eq_false]

theorem regOperandOk_regByte (i : RegIndex) : regOperandOk (regByte i) = true := by
  simpa using mt regOperandOk_eq_false.mpr (not_bad_regByte rfl)

/-- An instruction that advances needs its successor address. -/
theorem needsNext_advance {i : Instr} {s : State} (hs : setsPcBit i.opcode = false) (hh : i ≠ .hlt)
    (hd : ∀ a b, i ≠ .div a b) (hm : ∀ a b, i ≠ .mod a b) : needsNext i s ∧ ¬ dividesByZero i s :=
  ⟨.inl ⟨hs, hh⟩, by rintro ⟨a, j, h | h, _⟩; exacts [hd _ _ h, hm _ _ h]⟩

/-- A division whose divisor is not 0 needs its successor address. -/
theorem needsNext_division {i : Instr} {a b : Byte} {s : State} (hi : i = .div a b ∨ i = .mod a b) :
    (∃ j, b = regByte j ∧ s.reg j ≠ 0#8) → needsNext i s ∧ ¬ dividesByZero i s := by
  rintro ⟨j, hb, hd⟩
  constructor
  · exact .inl (by rcases hi with h | h <;> subst h <;> exact ⟨by simp only [Instr.opcode]; decide, by simp⟩)
  · rintro ⟨a', j', h, hz⟩
    have : regByte j' = regByte j := by rcases hi with h' | h' <;> subst h' <;> simp_all
    rw [regByte_inj] at this
    exact hd (this ▸ hz)

/-- Everything an instruction can do when it answers a next state. -/
theorem exec_next {i : Instr} {s t : State} (h : exec i s = .next t) :
    (∃ c, InstrFault i s c ∧ s.fault c = t) ∨ Effect i s t := by
  cases i with
  | hlt => exact .inr (Result.next_inj.mp h)
  | ret => exact .inr (Result.next_inj.mp h)
  | iret => exact .inr (Result.next_inj.mp h)
  | call a => exact (execCall_next h).imp_left (FormFault.instr (by simp only [Instr.opcode]; decide) regOperandOk_eq_false
      (fun _ => ⟨.inr (.inl ⟨a, rfl⟩), by simp [dividesByZero]⟩))
  | jmp a => exact (execJmp_next h).imp_left (FormFault.instr (by simp only [Instr.opcode]; decide) regOperandOk_eq_false
      False.elim)
  | push a => exact (formR_advance_next h).imp_left (FormFault.instr (by simp only [Instr.opcode]; decide) regOperandOk_eq_false
      (fun _ => needsNext_advance (by simp only [Instr.opcode]; decide) (by simp) (by simp) (by simp)))
  | pop a => exact (formR_advance_next h).imp_left (FormFault.instr (by simp only [Instr.opcode]; decide) regOperandOk_eq_false
      (fun _ => needsNext_advance (by simp only [Instr.opcode]; decide) (by simp) (by simp) (by simp)))
  | prn a => exact (formR_advance_next h).imp_left (FormFault.instr (by simp only [Instr.opcode]; decide) regOperandOk_eq_false
      (fun _ => needsNext_advance (by simp only [Instr.opcode]; decide) (by simp) (by simp) (by simp)))
  | pra a => exact (formR_advance_next h).imp_left (FormFault.instr (by simp only [Instr.opcode]; decide) regOperandOk_eq_false
      (fun _ => needsNext_advance (by simp only [Instr.opcode]; decide) (by simp) (by simp) (by simp)))
  | inc a => exact (formR_advance_next h).imp_left (FormFault.instr (by simp only [Instr.opcode]; decide) regOperandOk_eq_false
      (fun _ => needsNext_advance (by simp only [Instr.opcode]; decide) (by simp) (by simp) (by simp)))
  | dec a => exact (formR_advance_next h).imp_left (FormFault.instr (by simp only [Instr.opcode]; decide) regOperandOk_eq_false
      (fun _ => needsNext_advance (by simp only [Instr.opcode]; decide) (by simp) (by simp) (by simp)))
  | not a => exact (formR_advance_next h).imp_left (FormFault.instr (by simp only [Instr.opcode]; decide) regOperandOk_eq_false
      (fun _ => needsNext_advance (by simp only [Instr.opcode]; decide) (by simp) (by simp) (by simp)))
  | jeq a => exact (jumpIf_next h).imp_left (FormFault.instr (by simp only [Instr.opcode]; decide) regOperandOk_eq_false
      (fun hc => ⟨.inr (.inr (.inl ⟨a, rfl, hc⟩)), by simp [dividesByZero]⟩))
  | jne a => exact (jumpIf_next h).imp_left (FormFault.instr (by simp only [Instr.opcode]; decide) regOperandOk_eq_false
      (fun hc => ⟨.inr (.inr (.inr (.inl ⟨a, rfl, (by have e : (!s.fl.getLsbD 0) = false := hc; simpa using e)⟩))), by simp [dividesByZero]⟩))
  | jgt a => exact (jumpIf_next h).imp_left (FormFault.instr (by simp only [Instr.opcode]; decide) regOperandOk_eq_false
      (fun hc => ⟨.inr (.inr (.inr (.inr (.inl ⟨a, rfl, hc⟩)))), by simp [dividesByZero]⟩))
  | jlt a => exact (jumpIf_next h).imp_left (FormFault.instr (by simp only [Instr.opcode]; decide) regOperandOk_eq_false
      (fun hc => ⟨.inr (.inr (.inr (.inr (.inr (.inl ⟨a, rfl, hc⟩))))), by simp [dividesByZero]⟩))
  | jle a => exact (jumpIf_next h).imp_left (FormFault.instr (by simp only [Instr.opcode]; decide) regOperandOk_eq_false
      (fun hc => ⟨.inr (.inr (.inr (.inr (.inr (.inr (.inl ⟨a, rfl, Bool.or_eq_false_iff.mp hc⟩)))))), by simp [dividesByZero]⟩))
  | jge a => exact (jumpIf_next h).imp_left (FormFault.instr (by simp only [Instr.opcode]; decide) regOperandOk_eq_false
      (fun hc => ⟨.inr (.inr (.inr (.inr (.inr (.inr (.inr ⟨a, rfl, Bool.or_eq_false_iff.mp hc⟩)))))), by simp [dividesByZero]⟩))
  | ldi a imm => exact (formRI_advance_next h).imp_left (FormFault.instr (by simp only [Instr.opcode]; decide) regOperandOk_eq_false
      (fun _ => needsNext_advance (by simp only [Instr.opcode]; decide) (by simp) (by simp) (by simp)))
  | addi a imm => exact (formRI_advance_next h).imp_left (FormFault.instr (by simp only [Instr.opcode]; decide) regOperandOk_eq_false
      (fun _ => needsNext_advance (by simp only [Instr.opcode]; decide) (by simp) (by simp) (by simp)))
  | ld a b => exact (formRR_advance_next h).imp_left (FormFault.instr (by simp only [Instr.opcode]; decide) two_regOperandOk
      (fun _ => needsNext_advance (by simp only [Instr.opcode]; decide) (by simp) (by simp) (by simp)))
  | st a b => exact (formRR_advance_next h).imp_left (FormFault.instr (by simp only [Instr.opcode]; decide) two_regOperandOk
      (fun _ => needsNext_advance (by simp only [Instr.opcode]; decide) (by simp) (by simp) (by simp)))
  | add a b => exact (formRR_advance_next h).imp_left (FormFault.instr (by simp only [Instr.opcode]; decide) two_regOperandOk
      (fun _ => needsNext_advance (by simp only [Instr.opcode]; decide) (by simp) (by simp) (by simp)))
  | sub a b => exact (formRR_advance_next h).imp_left (FormFault.instr (by simp only [Instr.opcode]; decide) two_regOperandOk
      (fun _ => needsNext_advance (by simp only [Instr.opcode]; decide) (by simp) (by simp) (by simp)))
  | mul a b => exact (formRR_advance_next h).imp_left (FormFault.instr (by simp only [Instr.opcode]; decide) two_regOperandOk
      (fun _ => needsNext_advance (by simp only [Instr.opcode]; decide) (by simp) (by simp) (by simp)))
  | cmp a b => exact (formRR_advance_next h).imp_left (FormFault.instr (by simp only [Instr.opcode]; decide) two_regOperandOk
      (fun _ => needsNext_advance (by simp only [Instr.opcode]; decide) (by simp) (by simp) (by simp)))
  | and a b => exact (formRR_advance_next h).imp_left (FormFault.instr (by simp only [Instr.opcode]; decide) two_regOperandOk
      (fun _ => needsNext_advance (by simp only [Instr.opcode]; decide) (by simp) (by simp) (by simp)))
  | or a b => exact (formRR_advance_next h).imp_left (FormFault.instr (by simp only [Instr.opcode]; decide) two_regOperandOk
      (fun _ => needsNext_advance (by simp only [Instr.opcode]; decide) (by simp) (by simp) (by simp)))
  | xor a b => exact (formRR_advance_next h).imp_left (FormFault.instr (by simp only [Instr.opcode]; decide) two_regOperandOk
      (fun _ => needsNext_advance (by simp only [Instr.opcode]; decide) (by simp) (by simp) (by simp)))
  | shl a b => exact (formRR_advance_next h).imp_left (FormFault.instr (by simp only [Instr.opcode]; decide) two_regOperandOk
      (fun _ => needsNext_advance (by simp only [Instr.opcode]; decide) (by simp) (by simp) (by simp)))
  | shr a b => exact (formRR_advance_next h).imp_left (FormFault.instr (by simp only [Instr.opcode]; decide) two_regOperandOk
      (fun _ => needsNext_advance (by simp only [Instr.opcode]; decide) (by simp) (by simp) (by simp)))
  | div a b =>
    rcases aluDivRR_next h with h | ⟨i, j, ha, hb, hd, h⟩ | ⟨i, j, ha, hb, _, hp, h⟩
    · exact .inl (FormFault.instr (by simp only [Instr.opcode]; decide) two_regOperandOk (needsNext_division (.inl rfl)) h)
    · exact .inl ⟨.arithmeticFault, ⟨by subst ha hb; simp [Instr.wellFormed, regOperandOk_regByte],
        a, j, by subst hb; exact .inl rfl, hd⟩, h⟩
    · exact .inr ⟨i, j, ha, hb, hp, h⟩
  | mod a b =>
    rcases aluDivRR_next h with h | ⟨i, j, ha, hb, hd, h⟩ | ⟨i, j, ha, hb, _, hp, h⟩
    · exact .inl (FormFault.instr (by simp only [Instr.opcode]; decide) two_regOperandOk (needsNext_division (.inr rfl)) h)
    · exact .inl ⟨.arithmeticFault, ⟨by subst ha hb; simp [Instr.wellFormed, regOperandOk_regByte],
        a, j, by subst hb; exact .inr rfl, hd⟩, h⟩
    · exact .inr ⟨i, j, ha, hb, hp, h⟩

end Sys2Proof.Machine
end

