-- ==== Sys2Proof/Laws/PerInstr.lean ====
section
/-! SUPPORT. Statements about every instruction as syntax, one lemma a constructor. -/

namespace Sys2Proof.Laws

/-- The ten sets-PC instructions (30_encoding.md R58, last paragraph of its checks). -/
def setsPc : Instr → Bool
  | .call _ => true
  | .ret => true
  | .jmp _ => true
  | .jeq _ => true
  | .jne _ => true
  | .jgt _ => true
  | .jlt _ => true
  | .jle _ => true
  | .jge _ => true
  | .iret => true
  | _ => false

/-- The sub-fields of an instruction's opcode byte (30_encoding.md R51 and the checks of R58): bits 7:6 are its operand
count, so its length is `n + 1` (R52); bit 4 is set exactly in the sets-PC instructions; the byte is in the map; and the
first operand of a well-formed instruction is a register index (R57). -/
def OpcodeFields.Statement (i : Instr) : Prop :=
  operandCount i.opcode = i.operands.length ∧ (encode i).length = operandCount i.opcode + 1 ∧
  setsPcBit i.opcode = setsPc i ∧ isOpcode i.opcode = true ∧
  (i.wellFormed = true → ∀ a ∈ i.operands.head?, a.toNat < 8)

theorem opcodeFields_of {i : Instr} (n : Nat) (hl : i.operands.length = n) (hn : operandCount i.opcode = n)
    (hs : setsPcBit i.opcode = setsPc i) (ho : isOpcode i.opcode = true)
    (hw : i.wellFormed = true → ∀ a ∈ i.operands.head?, a.toNat < 8) : OpcodeFields.Statement i :=
  ⟨hn.trans hl.symm, by rw [hn, encode, List.length_cons, hl], hs, ho, hw⟩

theorem OpcodeFields.hlt : OpcodeFields.Statement .hlt :=
  opcodeFields_of 0 rfl (by simp only [Instr.opcode]; decide) (by simp only [Instr.opcode, setsPc]; decide) (by simp only [Instr.opcode]; decide)
    (by simp [Instr.operands])
theorem OpcodeFields.ret : OpcodeFields.Statement .ret :=
  opcodeFields_of 0 rfl (by simp only [Instr.opcode]; decide) (by simp only [Instr.opcode, setsPc]; decide) (by simp only [Instr.opcode]; decide)
    (by simp [Instr.operands])
theorem OpcodeFields.iret : OpcodeFields.Statement .iret :=
  opcodeFields_of 0 rfl (by simp only [Instr.opcode]; decide) (by simp only [Instr.opcode, setsPc]; decide) (by simp only [Instr.opcode]; decide)
    (by simp [Instr.operands])
theorem OpcodeFields.push (a : Byte) : OpcodeFields.Statement (.push a) :=
  opcodeFields_of 1 rfl (by simp only [Instr.opcode]; decide) (by simp only [Instr.opcode, setsPc]; decide) (by simp only [Instr.opcode]; decide)
    (by simp [Instr.wellFormed, Instr.operands, regOperandOk])
theorem OpcodeFields.pop (a : Byte) : OpcodeFields.Statement (.pop a) :=
  opcodeFields_of 1 rfl (by simp only [Instr.opcode]; decide) (by simp only [Instr.opcode, setsPc]; decide) (by simp only [Instr.opcode]; decide)
    (by simp [Instr.wellFormed, Instr.operands, regOperandOk])
theorem OpcodeFields.prn (a : Byte) : OpcodeFields.Statement (.prn a) :=
  opcodeFields_of 1 rfl (by simp only [Instr.opcode]; decide) (by simp only [Instr.opcode, setsPc]; decide) (by simp only [Instr.opcode]; decide)
    (by simp [Instr.wellFormed, Instr.operands, regOperandOk])
theorem OpcodeFields.pra (a : Byte) : OpcodeFields.Statement (.pra a) :=
  opcodeFields_of 1 rfl (by simp only [Instr.opcode]; decide) (by simp only [Instr.opcode, setsPc]; decide) (by simp only [Instr.opcode]; decide)
    (by simp [Instr.wellFormed, Instr.operands, regOperandOk])
theorem OpcodeFields.call (a : Byte) : OpcodeFields.Statement (.call a) :=
  opcodeFields_of 1 rfl (by simp only [Instr.opcode]; decide) (by simp only [Instr.opcode, setsPc]; decide) (by simp only [Instr.opcode]; decide)
    (by simp [Instr.wellFormed, Instr.operands, regOperandOk])
theorem OpcodeFields.jmp (a : Byte) : OpcodeFields.Statement (.jmp a) :=
  opcodeFields_of 1 rfl (by simp only [Instr.opcode]; decide) (by simp only [Instr.opcode, setsPc]; decide) (by simp only [Instr.opcode]; decide)
    (by simp [Instr.wellFormed, Instr.operands, regOperandOk])
theorem OpcodeFields.jeq (a : Byte) : OpcodeFields.Statement (.jeq a) :=
  opcodeFields_of 1 rfl (by simp only [Instr.opcode]; decide) (by simp only [Instr.opcode, setsPc]; decide) (by simp only [Instr.opcode]; decide)
    (by simp [Instr.wellFormed, Instr.operands, regOperandOk])
theorem OpcodeFields.jne (a : Byte) : OpcodeFields.Statement (.jne a) :=
  opcodeFields_of 1 rfl (by simp only [Instr.opcode]; decide) (by simp only [Instr.opcode, setsPc]; decide) (by simp only [Instr.opcode]; decide)
    (by simp [Instr.wellFormed, Instr.operands, regOperandOk])
theorem OpcodeFields.jgt (a : Byte) : OpcodeFields.Statement (.jgt a) :=
  opcodeFields_of 1 rfl (by simp only [Instr.opcode]; decide) (by simp only [Instr.opcode, setsPc]; decide) (by simp only [Instr.opcode]; decide)
    (by simp [Instr.wellFormed, Instr.operands, regOperandOk])
theorem OpcodeFields.jlt (a : Byte) : OpcodeFields.Statement (.jlt a) :=
  opcodeFields_of 1 rfl (by simp only [Instr.opcode]; decide) (by simp only [Instr.opcode, setsPc]; decide) (by simp only [Instr.opcode]; decide)
    (by simp [Instr.wellFormed, Instr.operands, regOperandOk])
theorem OpcodeFields.jle (a : Byte) : OpcodeFields.Statement (.jle a) :=
  opcodeFields_of 1 rfl (by simp only [Instr.opcode]; decide) (by simp only [Instr.opcode, setsPc]; decide) (by simp only [Instr.opcode]; decide)
    (by simp [Instr.wellFormed, Instr.operands, regOperandOk])
theorem OpcodeFields.jge (a : Byte) : OpcodeFields.Statement (.jge a) :=
  opcodeFields_of 1 rfl (by simp only [Instr.opcode]; decide) (by simp only [Instr.opcode, setsPc]; decide) (by simp only [Instr.opcode]; decide)
    (by simp [Instr.wellFormed, Instr.operands, regOperandOk])
theorem OpcodeFields.inc (a : Byte) : OpcodeFields.Statement (.inc a) :=
  opcodeFields_of 1 rfl (by simp only [Instr.opcode]; decide) (by simp only [Instr.opcode, setsPc]; decide) (by simp only [Instr.opcode]; decide)
    (by simp [Instr.wellFormed, Instr.operands, regOperandOk])
theorem OpcodeFields.dec (a : Byte) : OpcodeFields.Statement (.dec a) :=
  opcodeFields_of 1 rfl (by simp only [Instr.opcode]; decide) (by simp only [Instr.opcode, setsPc]; decide) (by simp only [Instr.opcode]; decide)
    (by simp [Instr.wellFormed, Instr.operands, regOperandOk])
theorem OpcodeFields.not (a : Byte) : OpcodeFields.Statement (.not a) :=
  opcodeFields_of 1 rfl (by simp only [Instr.opcode]; decide) (by simp only [Instr.opcode, setsPc]; decide) (by simp only [Instr.opcode]; decide)
    (by simp [Instr.wellFormed, Instr.operands, regOperandOk])
theorem OpcodeFields.ldi (a imm : Byte) : OpcodeFields.Statement (.ldi a imm) :=
  opcodeFields_of 2 rfl (by simp only [Instr.opcode]; decide) (by simp only [Instr.opcode, setsPc]; decide) (by simp only [Instr.opcode]; decide)
    (by simp [Instr.wellFormed, Instr.operands, regOperandOk])
theorem OpcodeFields.ld (a b : Byte) : OpcodeFields.Statement (.ld a b) :=
  opcodeFields_of 2 rfl (by simp only [Instr.opcode]; decide) (by simp only [Instr.opcode, setsPc]; decide) (by simp only [Instr.opcode]; decide)
    (by simp +contextual [Instr.wellFormed, Instr.operands, regOperandOk])
theorem OpcodeFields.st (a b : Byte) : OpcodeFields.Statement (.st a b) :=
  opcodeFields_of 2 rfl (by simp only [Instr.opcode]; decide) (by simp only [Instr.opcode, setsPc]; decide) (by simp only [Instr.opcode]; decide)
    (by simp +contextual [Instr.wellFormed, Instr.operands, regOperandOk])
theorem OpcodeFields.add (a b : Byte) : OpcodeFields.Statement (.add a b) :=
  opcodeFields_of 2 rfl (by simp only [Instr.opcode]; decide) (by simp only [Instr.opcode, setsPc]; decide) (by simp only [Instr.opcode]; decide)
    (by simp +contextual [Instr.wellFormed, Instr.operands, regOperandOk])
theorem OpcodeFields.sub (a b : Byte) : OpcodeFields.Statement (.sub a b) :=
  opcodeFields_of 2 rfl (by simp only [Instr.opcode]; decide) (by simp only [Instr.opcode, setsPc]; decide) (by simp only [Instr.opcode]; decide)
    (by simp +contextual [Instr.wellFormed, Instr.operands, regOperandOk])
theorem OpcodeFields.mul (a b : Byte) : OpcodeFields.Statement (.mul a b) :=
  opcodeFields_of 2 rfl (by simp only [Instr.opcode]; decide) (by simp only [Instr.opcode, setsPc]; decide) (by simp only [Instr.opcode]; decide)
    (by simp +contextual [Instr.wellFormed, Instr.operands, regOperandOk])
theorem OpcodeFields.div (a b : Byte) : OpcodeFields.Statement (.div a b) :=
  opcodeFields_of 2 rfl (by simp only [Instr.opcode]; decide) (by simp only [Instr.opcode, setsPc]; decide) (by simp only [Instr.opcode]; decide)
    (by simp +contextual [Instr.wellFormed, Instr.operands, regOperandOk])
theorem OpcodeFields.mod (a b : Byte) : OpcodeFields.Statement (.mod a b) :=
  opcodeFields_of 2 rfl (by simp only [Instr.opcode]; decide) (by simp only [Instr.opcode, setsPc]; decide) (by simp only [Instr.opcode]; decide)
    (by simp +contextual [Instr.wellFormed, Instr.operands, regOperandOk])
theorem OpcodeFields.cmp (a b : Byte) : OpcodeFields.Statement (.cmp a b) :=
  opcodeFields_of 2 rfl (by simp only [Instr.opcode]; decide) (by simp only [Instr.opcode, setsPc]; decide) (by simp only [Instr.opcode]; decide)
    (by simp +contextual [Instr.wellFormed, Instr.operands, regOperandOk])
theorem OpcodeFields.and (a b : Byte) : OpcodeFields.Statement (.and a b) :=
  opcodeFields_of 2 rfl (by simp only [Instr.opcode]; decide) (by simp only [Instr.opcode, setsPc]; decide) (by simp only [Instr.opcode]; decide)
    (by simp +contextual [Instr.wellFormed, Instr.operands, regOperandOk])
theorem OpcodeFields.or (a b : Byte) : OpcodeFields.Statement (.or a b) :=
  opcodeFields_of 2 rfl (by simp only [Instr.opcode]; decide) (by simp only [Instr.opcode, setsPc]; decide) (by simp only [Instr.opcode]; decide)
    (by simp +contextual [Instr.wellFormed, Instr.operands, regOperandOk])
theorem OpcodeFields.xor (a b : Byte) : OpcodeFields.Statement (.xor a b) :=
  opcodeFields_of 2 rfl (by simp only [Instr.opcode]; decide) (by simp only [Instr.opcode, setsPc]; decide) (by simp only [Instr.opcode]; decide)
    (by simp +contextual [Instr.wellFormed, Instr.operands, regOperandOk])
theorem OpcodeFields.shl (a b : Byte) : OpcodeFields.Statement (.shl a b) :=
  opcodeFields_of 2 rfl (by simp only [Instr.opcode]; decide) (by simp only [Instr.opcode, setsPc]; decide) (by simp only [Instr.opcode]; decide)
    (by simp +contextual [Instr.wellFormed, Instr.operands, regOperandOk])
theorem OpcodeFields.shr (a b : Byte) : OpcodeFields.Statement (.shr a b) :=
  opcodeFields_of 2 rfl (by simp only [Instr.opcode]; decide) (by simp only [Instr.opcode, setsPc]; decide) (by simp only [Instr.opcode]; decide)
    (by simp +contextual [Instr.wellFormed, Instr.operands, regOperandOk])
theorem OpcodeFields.addi (a imm : Byte) : OpcodeFields.Statement (.addi a imm) :=
  opcodeFields_of 2 rfl (by simp only [Instr.opcode]; decide) (by simp only [Instr.opcode, setsPc]; decide) (by simp only [Instr.opcode]; decide)
    (by simp [Instr.wellFormed, Instr.operands, regOperandOk])

end Sys2Proof.Laws
end

