-- ==== Sys2Proof/Laws/Step.lean ====
section
/-! SUPPORT. What one step can do, said once. -/

namespace Sys2Proof.Machine

theorem step_stopped {s : State} (h : s.run ≠ .running) : step s = .next s := by
  unfold step cycle
  cases hr : s.run with
  | running => exact absurd hr h
  | halted => rfl
  | faulted c p o => rfl

theorem step_running {s : State} (h : s.run = .running) : step s = checkAndExecute s.poll := by
  unfold step cycle; rw [h]

/-- Step 3 to 5 in a state: a decode failure, an operand fetch beyond memory, or an instruction. -/
theorem fetchExecute_cases (s : State) :
    (∃ ir, decode s.fetchBytes = .error (.unknownOpcode ir) ∧ fetchExecute s = raise .decodeFailure s) ∨
    (decode s.fetchBytes = .error .truncated ∧ fetchExecute s = raise (.outOfRange .operandFetch) s) ∨
    (∃ i rest, decode s.fetchBytes = .ok (i, rest) ∧ fetchExecute s = exec i s) := by
  unfold fetchExecute
  cases h : decode s.fetchBytes with
  | error e =>
    cases e with
    | unknownOpcode ir => exact .inl ⟨ir, rfl, rfl⟩
    | truncated => exact .inr (.inl ⟨rfl, rfl⟩)
  | ok p => obtain ⟨i, rest⟩ := p; exact .inr (.inr ⟨i, rest, rfl, rfl⟩)

/-- A step that answers a next state: the machine stood still, entered an interrupt, or fetched. -/
theorem step_cases {s t : State} (h : step s = .next t) :
    (s.run ≠ .running ∧ t = s) ∨
    (s.run = .running ∧ ∃ l, s.poll.serviceable = some l ∧ t = s.poll.interruptEntry l) ∨
    (s.run = .running ∧ s.poll.serviceable = none ∧ fetchExecute s.poll = .next t) := by
  by_cases hr : s.run = .running
  · rw [step_running hr] at h
    unfold checkAndExecute at h
    cases hl : s.poll.serviceable with
    | some l =>
      rw [hl] at h
      exact .inr (.inl ⟨hr, l, rfl, (Result.next_inj.mp h).symm⟩)
    | none =>
      rw [hl] at h
      exact .inr (.inr ⟨hr, rfl, h⟩)
  · rw [step_stopped hr] at h
    exact .inl ⟨hr, (Result.next_inj.mp h).symm⟩

theorem step_entry {s : State} {l : Nat} (hr : s.run = .running) (hl : s.poll.serviceable = some l) :
    step s = .next (s.poll.interruptEntry l) := by
  rw [step_running hr, checkAndExecute, hl]

theorem step_fetch {s : State} (hr : s.run = .running) (hl : s.poll.serviceable = none) :
    step s = fetchExecute s.poll := by
  rw [step_running hr, checkAndExecute, hl]

/-- Settling the coming sample leaves one listed and changes nothing else. -/
theorem State.settleSample_listed (s : State) :
    ∃ i rest, s.settleSample = s.setInputs (i :: rest) ∧ (s.inputs = [] ∨ s.inputs = i :: rest) := by
  obtain ⟨regs, pc, fl, ie, mem, run, tLast, out, inputs, samples⟩ := s
  cases inputs with
  | nil => exact ⟨_, _, rfl, .inl rfl⟩
  | cons i rest => exact ⟨i, rest, rfl, .inr rfl⟩

end Sys2Proof.Machine
end

