-- ==== Sys2Proof/Machine/Loader.lean ====
section
/-! DEFINITION. The program-image text format (70_reset_and_hazards.md R203). The loader is out of the spec's scope
(00_scope.md R2 a); its text format is kept because R203 states it. -/

namespace Sys2Proof.Machine

/-- A binary digit of an image text. -/
def isBinDigit (c : Char) : Bool := c == '0' || c == '1'

/-- A line's content: up to `#`. -/
def lineContent (line : List Char) : List Char := line.takeWhile (· != '#')

/-- The value of binary digits, the first the most significant (R203 "big-endian"). -/
def binValue (digits : List Char) : Nat := digits.foldl (fun n c => 2 * n + (if c == '1' then 1 else 0)) 0

/-- The byte a line yields: its binary digits are one run of exactly 8 (R203; DESIGN CHOICE where 8 digits do not stand
together: the line is skipped, log 23). -/
def lineByte (line : List Char) : Option Byte :=
  let digits := (lineContent line).dropWhile (fun c => !isBinDigit c) |>.takeWhile isBinDigit
  if digits.length = 8 ∧ (lineContent line).countP isBinDigit = 8 then some (BitVec.ofNat 8 (binValue digits)) else none

/-- The lines of a text, cut at newlines. -/
def splitLines : List Char → List (List Char)
  | [] => [[]]
  | c :: cs =>
    if c = '\n' then [] :: splitLines cs
    else match splitLines cs with
      | [] => [[c]]
      | l :: ls => (c :: l) :: ls

/-- The image a text stands for (R203). -/
def parseImage (text : List Char) : List Byte := (splitLines text).filterMap lineByte

end Sys2Proof.Machine
end

