-- ==== Sys2Proof/Tests/Slice0.lean ====
section
/-! SUPPORT. Tests on fixed values and the witnesses of the statements. Expected results are those of
spec/95_test_vectors.md (E1 to E10, V1 to V72; the vector is named beside each test) or are read off the rule named. -/

namespace Sys2Proof.Tests
open Sys2Proof Sys2Proof.Machine

/-! ### Building small states -/

/-- A sample with no input byte and no tick. -/
def quiet : CycleInput := { key := none, now := 0 }

/-- The reset state with quiet cycles to come: an unlisted sample is a free value, and no test can rest on one. -/
def fresh : State := State.reset.setInputs [quiet, quiet]

/-- The fresh state with the given registers 0 to 3 and pc. -/
def regs4 (pc r0 r1 r2 r3 : Byte) : State :=
  { fresh with regs := #v[r0, r1, r2, r3, 0, 0, 0, 0xF4], pc := pc }

/-- The fresh state at an address. -/
def atPc (pc : Byte) : State := { fresh with pc := pc }

/-- Bytes stored from an address. -/
def put (a : Nat) (bytes : List Byte) (s : State) : State := { s with mem := Memory.writeBytes s.mem a bytes }

/-- The bytes at the pc. -/
def code (bytes : List Byte) (s : State) : State := put s.pc.toNat bytes s

/-- The step answers a next state that passes a check. -/
def ran (s : State) (p : State → Bool) : Bool :=
  match step s with
  | .next t => p t
  | .fault _ => false
  | .refused _ => false

/-- The step ends the run with a fault recorded as given, and nothing else has changed but the sample taken. -/
def faults (s : State) (c : Fault) (p o : Byte) : Bool :=
  ran s fun t => decide (t = s.takeSample.setRun (.faulted c p o))

/-- The bytes decode to the instruction with nothing left. -/
def reads (bytes : List Byte) (i : Instr) : Bool :=
  match decode bytes with
  | .ok (j, rest) => decide (j = i) && decide (rest = [])
  | .error _ => false

/-! ### Well-formedness: one ill-formed term for each check -/

theorem test_wf_register_accepted : (Instr.push 7).wellFormed = true := by decide
theorem test_wf_push : (Instr.push 8).wellFormed = false := by decide
theorem test_wf_pop : (Instr.pop 8).wellFormed = false := by decide
theorem test_wf_prn : (Instr.prn 0xFF).wellFormed = false := by decide
theorem test_wf_pra : (Instr.pra 8).wellFormed = false := by decide
theorem test_wf_call : (Instr.call 8).wellFormed = false := by decide
theorem test_wf_jumps : [Instr.jmp 8, .jeq 8, .jne 8, .jgt 8, .jlt 8, .jle 8, .jge 8].all (fun i => !i.wellFormed) = true := by
  decide
theorem test_wf_unary : [Instr.inc 8, .dec 8, .not 8].all (fun i => !i.wellFormed) = true := by decide
theorem test_wf_immediate_forms : [Instr.ldi 8 0, .addi 8 0].all (fun i => !i.wellFormed) = true := by decide
theorem test_wf_immediate_free : (Instr.ldi 7 0xFF).wellFormed = true := by decide
theorem test_wf_first_of_two :
    [Instr.ld 8 0, .st 8 0, .add 8 0, .sub 8 0, .mul 8 0, .div 8 0, .mod 8 0, .cmp 8 0, .and 8 0, .or 8 0, .xor 8 0,
      .shl 8 0, .shr 8 0].all (fun i => !i.wellFormed) = true := by decide
theorem test_wf_second_of_two :
    [Instr.ld 0 8, .st 0 8, .add 0 8, .sub 0 8, .mul 0 8, .div 0 8, .mod 0 8, .cmp 0 8, .and 0 8, .or 0 8, .xor 0 8,
      .shl 0 8, .shr 0 8].all (fun i => !i.wellFormed) = true := by decide

/-! ### Decoding: every constructor from bytes written out (30_encoding.md R53, R58) -/

theorem test_decode_format_z :
    (reads [0b00000001] .hlt && reads [0b00010001] .ret && reads [0b00010011] .iret) = true := by decide
theorem test_decode_stack_and_print :
    (reads [0b01000101, 1] (.push 1) && reads [0b01000110, 2] (.pop 2) && reads [0b01000111, 3] (.prn 3) &&
      reads [0b01001000, 4] (.pra 4)) = true := by decide
theorem test_decode_call_and_jumps :
    (reads [0b01010000, 1] (.call 1) && reads [0b01010100, 2] (.jmp 2) && reads [0b01010101, 3] (.jeq 3) &&
      reads [0b01010110, 4] (.jne 4) && reads [0b01010111, 5] (.jgt 5) && reads [0b01011000, 6] (.jlt 6) &&
      reads [0b01011001, 7] (.jle 7) && reads [0b01011010, 0] (.jge 0)) = true := by decide
theorem test_decode_unary :
    (reads [0b01100101, 1] (.inc 1) && reads [0b01100110, 2] (.dec 2) && reads [0b01101001, 3] (.not 3)) = true := by decide
theorem test_decode_data :
    (reads [0b10000010, 1, 0xFF] (.ldi 1 0xFF) && reads [0b10000011, 1, 2] (.ld 1 2) &&
      reads [0b10000100, 1, 2] (.st 1 2)) = true := by decide
theorem test_decode_arithmetic :
    (reads [0b10100000, 1, 2] (.add 1 2) && reads [0b10100001, 1, 2] (.sub 1 2) && reads [0b10100010, 1, 2] (.mul 1 2) &&
      reads [0b10100011, 1, 2] (.div 1 2) && reads [0b10100100, 1, 2] (.mod 1 2)) = true := by decide
theorem test_decode_logic :
    (reads [0b10100111, 1, 2] (.cmp 1 2) && reads [0b10101000, 1, 2] (.and 1 2) && reads [0b10101010, 1, 2] (.or 1 2) &&
      reads [0b10101011, 1, 2] (.xor 1 2) && reads [0b10101100, 1, 2] (.shl 1 2) && reads [0b10101101, 1, 2] (.shr 1 2) &&
      reads [0b10101110, 1, 2] (.addi 1 2)) = true := by decide
/-- The bytes of NOP and INT of the LS-8 family, bytes with operand count 3, and others are no opcode (R59, R60, V50). -/
theorem test_decode_rejects :
    [0x00#8, 0x52#8, 0xC0#8, 0xFF#8, 0xAF#8, 0x02#8].all (fun b => !isOpcode b) = true := by decide
/-- The table word of ADD R0,R1: the opcode in bits 7:0, then the operands. -/
theorem test_decode_table_word : decodeTableWord 24 0x0100A0 = some (.add 0 1) := by decide

/-! ### One step of each instruction -/

-- ALU (V1 to V15)
theorem test_add_document : ran (code [0xA0, 0, 1] (regs4 0 0x08 0x09 0 0)) (fun t => t.reg 0 = 0x11 ∧ t.pc = 3) = true := by
  decide -- V1a
theorem test_add_same_register : ran (code [0xA0, 2, 2] (regs4 0 0 0 0x81 0)) (fun t => t.reg 2 = 0x02 ∧ t.fl = 0) = true := by
  decide -- V1e
theorem test_sub_borrow : ran (code [0xA1, 0, 1] (regs4 0 0x03 0x05 0 0)) (fun t => t.reg 0 = 0xFE ∧ t.reg 1 = 5) = true := by
  decide -- V2c
theorem test_mul_low_byte : ran (code [0xA2, 0, 1] (regs4 0 0xFF 0xFF 0 0)) (fun t => t.reg 0 = 0x01) = true := by
  decide -- V3c
theorem test_div_unsigned : ran (code [0xA3, 0, 1] (regs4 0 0xFF 0x02 0 0)) (fun t => t.reg 0 = 0x7F) = true := by
  decide -- V4b
theorem test_div_by_zero : faults (code [0xA3, 0, 1] (regs4 0 0x07 0 0 0)) .arithmeticFault 0 0xA3 = true := by
  decide -- V51a
theorem test_mod_remainder : ran (code [0xA4, 0, 1] (regs4 0 0xFF 0x10 0 0)) (fun t => t.reg 0 = 0x0F) = true := by
  decide -- V5b
theorem test_mod_by_zero : faults (code [0xA4, 0, 1] (regs4 0 0x07 0 0 0)) .arithmeticFault 0 0xA4 = true := by
  decide -- V51b
theorem test_inc_wraps : ran (code [0x65, 3] (regs4 0 0 0 0 0xFF)) (fun t => t.reg 3 = 0 ∧ t.pc = 2) = true := by
  decide -- V6b
theorem test_inc_top : ran (code [0x65, 0] (atPc 0xFD)) (fun t => t.reg 0 = 1 ∧ t.pc = 0xFF) = true := by
  decide -- V56a
theorem test_dec_wraps : ran (code [0x66, 3] (regs4 0 0 0 0 0)) (fun t => t.reg 3 = 0xFF) = true := by decide -- V7b
theorem test_cmp_unsigned : ran (code [0xA7, 0, 1] (regs4 0 0x80 0x7F 0 0)) (fun t => t.fl = 0x02 ∧ t.reg 0 = 0x80) = true := by
  decide -- V8e
theorem test_cmp_replaces_flags :
    ran (code [0xA7, 0, 1] ((regs4 0 5 6 0 0).setFl 0xFF)) (fun t => t.fl = 0x04) = true := by decide -- V8g
theorem test_and : ran (code [0xA8, 0, 1] (regs4 0 0xF0 0x3C 0 0)) (fun t => t.reg 0 = 0x30) = true := by decide -- V9
theorem test_not : ran (code [0x69, 3] (regs4 0 0 0 0 0xA5)) (fun t => t.reg 3 = 0x5A) = true := by decide -- V10b
theorem test_or : ran (code [0xAA, 0, 1] (regs4 0 0xF0 0x3C 0 0)) (fun t => t.reg 0 = 0xFC) = true := by decide -- V11
theorem test_xor : ran (code [0xAB, 0, 1] (regs4 0 0xF0 0x3C 0 0)) (fun t => t.reg 0 = 0xCC) = true := by decide -- V12a
theorem test_shl_drops : ran (code [0xAC, 0, 1] (regs4 0 0x81 1 0 0)) (fun t => t.reg 0 = 0x02) = true := by decide -- V13a
theorem test_shl_full : ran (code [0xAC, 0, 1] (regs4 0 0xFF 0xFF 0 0)) (fun t => t.reg 0 = 0x00) = true := by decide -- V13e
theorem test_shr_zero_fill : ran (code [0xAD, 0, 1] (regs4 0 0x81 1 0 0)) (fun t => t.reg 0 = 0x40) = true := by
  decide -- V14a
theorem test_shr_eight : ran (code [0xAD, 0, 1] (regs4 0 0x80 8 0 0)) (fun t => t.reg 0 = 0) = true := by decide -- V14c
theorem test_addi : ran (code [0xAE, 2, 0xFF] (regs4 0 0 0 0x10 0)) (fun t => t.reg 2 = 0x0F ∧ t.pc = 3) = true := by
  decide -- V15b

-- data movement (V20 to V27)
theorem test_ldi : ran (code [0x82, 0, 0xFF] fresh) (fun t => t.reg 0 = 0xFF ∧ t.pc = 3) = true := by decide -- V20b
theorem test_ldi_sp : ran (code [0x82, 7, 0x80] fresh) (fun t => t.reg 7 = 0x80) = true := by decide -- V20c
theorem test_ld : ran (put 0xF4 [0x68] (code [0x83, 1, 0] (regs4 0 0xF4 0 0 0))) (fun t => t.reg 1 = 0x68) = true := by
  decide -- V21a
theorem test_ld_own_operand : ran (code [0x83, 0, 0] (regs4 0 1 0 0 0)) (fun t => t.reg 0 = 0) = true := by decide -- V21b
theorem test_st : ran (code [0x84, 0, 1] (regs4 0 0xF8 0x11 0 0)) (fun t => t.memRead 0xF8 = 0x11 ∧ t.reg 0 = 0xF8) = true := by
  decide -- V22a
theorem test_push : ran (code [0x45, 1] (regs4 0 0 0xAB 0 0)) (fun t => t.reg 7 = 0xF3 ∧ t.memRead 0xF3 = 0xAB) = true := by
  decide -- V23
theorem test_push_sp : ran (code [0x45, 7] fresh) (fun t => t.reg 7 = 0xF3 ∧ t.memRead 0xF3 = 0xF3) = true := by
  decide -- V25a
theorem test_pop_sp :
    ran (put 0xF3 [0x20] (code [0x46, 7] (fresh.setReg 7 0xF3))) (fun t => t.reg 7 = 0x21) = true := by decide -- V25b
theorem test_pop_wraps :
    ran (put 0xFF [0x77] (code [0x46, 1] (fresh.setReg 7 0xFF))) (fun t => t.reg 1 = 0x77 ∧ t.reg 7 = 0) = true := by
  decide -- V26b

-- control transfer (V30 to V36)
theorem test_call :
    ran (code [0x50, 1] (regs4 6 0 0x12 0 0)) (fun t => t.pc = 0x12 ∧ t.reg 7 = 0xF3 ∧ t.memRead 0xF3 = 8) = true := by
  decide -- V30
theorem test_call_sp : ran (code [0x50, 7] (atPc 0x10)) (fun t => t.pc = 0xF3 ∧ t.memRead 0xF3 = 0x12) = true := by
  decide -- V34
theorem test_ret_top :
    ran (put 0xF3 [0x08] (code [0x11] ((atPc 0xFF).setReg 7 0xF3))) (fun t => t.pc = 8 ∧ t.reg 7 = 0xF4) = true := by
  decide -- V36
theorem test_jmp_top : ran (code [0x54, 0] (regs4 0xFE 0x20 0 0 0)) (fun t => t.pc = 0x20) = true := by decide -- V32b

/-- One row of the table of V33: the pc after each of the six jumps, from the given flags. -/
def jumpRow (fl : Byte) : List Bool :=
  [0x55, 0x56, 0x57, 0x58, 0x59, 0x5A].map fun op =>
    ran (code [op, 3] ((regs4 0x14 0 0 0 0x0C).setFl fl)) fun t => t.pc = 0x0C
/-- Whether each of the six falls through. -/
def fallRow (fl : Byte) : List Bool :=
  [0x55, 0x56, 0x57, 0x58, 0x59, 0x5A].map fun op =>
    ran (code [op, 3] ((regs4 0x14 0 0 0 0x0C).setFl fl)) fun t => t.pc = 0x16

theorem test_jumps_taken : jumpRow 0x00 = [false, true, false, false, false, false] ∧
    jumpRow 0x01 = [true, false, false, false, true, true] ∧ jumpRow 0x02 = [false, true, true, false, false, true] ∧
    jumpRow 0x04 = [false, true, false, true, true, false] ∧ jumpRow 0x07 = [true, false, true, true, true, true] := by
  decide -- V33
theorem test_jumps_not_taken : fallRow 0xF8 = [true, false, true, true, true, true] := by decide -- V33
theorem test_jump_taken_at_top : ran (code [0x55, 0] ((regs4 0xFE 0x20 0 0 0).setFl 1)) (fun t => t.pc = 0x20) = true := by
  decide -- V54f

-- system (V40 to V43)
theorem test_hlt_top : ran (code [0x01] (atPc 0xFF)) (fun t => t.run = .halted ∧ t.pc = 0xFF) = true := by decide -- V40b
theorem test_prn : ran (code [0x47, 0] (regs4 0 0x11 0 0 0)) (fun t => t.out = [.num 0x11] ∧ t.pc = 2) = true := by
  decide -- V41
theorem test_pra : ran (code [0x48, 0] (regs4 0 0x41 0 0 0)) (fun t => t.out = [.chr 0x41]) = true := by decide -- V42
theorem test_iret_outside_handler :
    ran (put 0xF4 [6, 5, 4, 3, 2, 1, 0, 7, 0x30] (code [0x13] fresh)) (fun t =>
      t.regs = #v[0, 1, 2, 3, 4, 5, 6, 0xFD] ∧ t.fl = 7 ∧ t.pc = 0x30 ∧ t.ie = true) = true := by decide -- V43

/-! ### Faults (V50 to V55) -/

theorem test_zero_is_no_nop : faults (atPc 0x20) .decodeFailure 0x20 0x00 = true := by decide -- V50a
theorem test_int_is_undefined : faults (code [0x52, 0] (atPc 0x20)) .decodeFailure 0x20 0x52 = true := by decide -- V50b
theorem test_operand_fetch_one : faults (code [0x65] (atPc 0xFF)) (.outOfRange .operandFetch) 0xFF 0x65 = true := by
  decide -- V52a
theorem test_operand_fetch_two : faults (code [0xA0, 0] (atPc 0xFE)) (.outOfRange .operandFetch) 0xFE 0xA0 = true := by
  decide -- V52b
theorem test_register_index_first : faults (code [0x82, 8, 1] fresh) (.outOfRange .registerIndex) 0 0x82 = true := by
  decide -- V53a
theorem test_register_index_second : faults (code [0xA0, 0, 8] fresh) (.outOfRange .registerIndex) 0 0xA0 = true := by
  decide -- V53b
theorem test_register_index_not_taken :
    faults (code [0x55, 8] (fresh.setFl 2)) (.outOfRange .registerIndex) 0 0x55 = true := by decide -- V53c
theorem test_next_pc_call : faults (code [0x50, 0] (regs4 0xFE 0x20 0 0 0)) (.outOfRange .nextPc) 0xFE 0x50 = true := by
  decide -- V54d
theorem test_next_pc_not_taken :
    faults (code [0x55, 0] ((regs4 0xFE 0x20 0 0 0).setFl 2)) (.outOfRange .nextPc) 0xFE 0x55 = true := by decide -- V54e
theorem test_index_before_divisor : faults (code [0xA3, 8, 1] fresh) (.outOfRange .registerIndex) 0 0xA3 = true := by
  decide -- V55a
theorem test_divisor_before_successor :
    faults (code [0xA3, 0, 1] (regs4 0xFD 1 0 0 0)) .arithmeticFault 0xFD 0xA3 = true := by decide -- V55b

/-- An immediate above 7 explains no fault (V53d). -/
theorem test_immediate_explains_no_fault :
    ¬ (Fault.outOfRange .registerIndex).applies (code [0x82, 0, 0xFF] fresh) := by
  rintro ⟨i, ⟨rest, h⟩, hw⟩
  have e : decode (code [0x82, 0, 0xFF] fresh).fetchBytes = .ok (.ldi 0 0xFF, []) := rfl
  rw [e] at h
  cases h
  exact absurd hw (by decide)
/-- HLT at 255 misses no successor address (V40b). -/
theorem test_hlt_needs_no_successor : ¬ (Fault.outOfRange .nextPc).applies (code [0x01] (atPc 0xFF)) := by
  rintro ⟨i, ⟨rest, h⟩, -, -, -, hn⟩
  have e : decode (code [0x01] (atPc 0xFF)).fetchBytes = .ok (.hlt, []) := rfl
  rw [e] at h
  cases h
  revert hn
  simp [needsNext, jumpNotTaken]
/-- A taken jump at 254 misses no successor address (V54f). -/
theorem test_taken_jump_needs_no_successor :
    ¬ (Fault.outOfRange .nextPc).applies (code [0x55, 0] ((regs4 0xFE 0x20 0 0 0).setFl 1)) := by
  rintro ⟨i, ⟨rest, h⟩, -, -, -, hn⟩
  have e : decode (code [0x55, 0] ((regs4 0xFE 0x20 0 0 0).setFl 1)).fetchBytes = .ok (.jeq 0, []) := rfl
  rw [e] at h
  cases h
  revert hn
  simp [needsNext, jumpNotTaken, setsPcBit, code, put, regs4]

/-! ### Interrupts (V60 to V68) -/

/-- The machine of V60. -/
def v60 : State :=
  put 0xF8 [0x40, 0x50] (put 0x50 [0x65, 0x00, 0x13] (put 0x40 [0x13] (put 0x20 [0x01]
    { fresh with regs := #v[0x11, 0x22, 0x33, 0x44, 0x55, 0x03, 0x03, 0xF4], pc := 0x20, fl := 0x02 })))

/-- V60 after its entry cycle, from the vector's own words. -/
def v60After : State :=
  put 0xEB [0x02, 0x03, 0x55, 0x44, 0x33, 0x22, 0x11, 0x02, 0x20]
    { v60.takeSample with regs := #v[0x11, 0x22, 0x33, 0x44, 0x55, 0x03, 0x02, 0xEB], pc := 0x40, ie := false }

theorem test_interrupt_entry : ran v60 (fun t => t = v60After) = true := by decide -- V60
theorem test_interrupt_return : ran v60After (fun t =>
    t = { v60After.takeSample with regs := #v[0x11, 0x22, 0x33, 0x44, 0x55, 0x03, 0x02, 0xF4], pc := 0x20, ie := true }) = true := by
  decide -- V61
theorem test_masked_line : ran { code [0x65, 0] fresh with inputs := [{ key := none, now := 1000 }] } (fun t =>
    t.reg 6 = 1 ∧ t.reg 0 = 1 ∧ t.pc = 2 ∧ t.tLast = 1000 ∧ t.inputs = [] ∧ t.samples = 1) = true := by decide -- V64
theorem test_disabled : ran { (code [0x65, 0] fresh).setReg 5 1 with ie := false, inputs := [{ key := none, now := 1000 }] }
    (fun t => t.reg 6 = 1 ∧ t.reg 0 = 1 ∧ t.pc = 2 ∧ t.ie = false) = true := by decide -- V65
theorem test_key_and_tick : ran { (put 0xF8 [0x40, 0x50] fresh).setReg 5 3 with
      inputs := [{ key := some 0x41, now := 1000 }] } (fun t =>
    t.memRead 0xF4 = 0x41 ∧ t.reg 6 = 2 ∧ t.reg 7 = 0xEB ∧ t.pc = 0x40 ∧ t.ie = false ∧ t.memRead 0xEB = 2 ∧
      t.memRead 0xEC = 3) = true := by decide -- V67
theorem test_entry_wraps : ran { put 0xF8 [0x40] (((atPc 0x30).setReg 5 1).setReg 7 4) with
      inputs := [{ key := none, now := 1000 }] } (fun t =>
    t.reg 7 = 0xFB ∧ t.pc = 0x40 ∧ t.memRead 3 = 0x30 ∧ t.memRead 0xFC = 1) = true := by decide -- V68
theorem test_no_tick_before_the_period :
    ran { code [0x65, 0] fresh with inputs := [{ key := none, now := 999 }] } (fun t => t.reg 6 = 0 ∧ t.tLast = 0) =
      true := by decide -- R186

/-! ### Reset, load and the image text -/

theorem test_empty_memory : faults fresh .decodeFailure 0 0 = true := by decide -- V70
theorem test_load : (match State.reset.loadImage [0x82, 0x00, 0x08] with
    | .next t => decide (t = { State.reset with mem := [(0, 0x82), (2, 0x08)] })
    | .fault _ => false
    | .refused _ => false) = true := by decide -- V71
theorem test_image_line : lineByte "10000010 # LDI R0,8".toList = some 0x82 := by decide -- E10
theorem test_image_skips :
    parseImage "# 11111111\n\n1010101\n000000001\n00000001 # HLT".toList = [0x01] := by decide -- R203
theorem test_fault_codes :
    [Fault.decodeFailure.code, Fault.arithmeticFault.code, (Fault.outOfRange .nextPc).code] = [1, 2, 3] := by decide -- R160

/-! ### The host's placement -/

/-- A placed instruction runs next in a halted machine with an interrupt pending and an input byte on its way to it. -/
theorem test_with_fetch_word :
    ran (State.withFetchWord { v60.setPc 0xF4 with run := .halted, inputs := [{ key := some 1, now := 0 }] } 24 0x0100A0)
      (fun t => t.reg 0 = 0x33 ∧ t.pc = 0xF7) = true := by decide

/-- Placed right after reset, where no sample is listed. -/
theorem test_with_fetch_word_after_reset :
    ran (State.reset.withFetchWord 24 0xFF0082) (fun t => t.reg 0 = 0xFF ∧ t.pc = 3) = true := by decide

/-! ### Witnesses: the hypotheses of each statement can be met, at the edge of their range where they have one -/

theorem witness_DecodeAndEncodeAreInverse : decode [0xAE, 2, 0xFF, 0x01] = .ok (.addi 2 0xFF, [0x01]) := rfl
theorem witness_DecoderRejectsByName : 2 < (encode (.add 0 1)).length := by decide
theorem witness_LoaderFillsMemoryFromZero_fits : (List.replicate 256 (0xAA : Byte)).length ≤ 256 :=
  Nat.le_of_eq List.length_replicate
theorem witness_LoaderFillsMemoryFromZero_too_long : 256 < (List.replicate 257 (0xAA : Byte)).length := by
  rw [List.length_replicate]; omega
theorem witness_CanonicalMemory : Memory.wf [(0, 1), (255, 0xFF)] = true ∧ Memory.wf v60.mem = true := by decide
/-- For ArithmeticResults, LogicResults, ShiftResults, CompareResults, LoadAndStoreResults: the last address of three bytes. -/
theorem witness_three_bytes : (atPc 0xFC).pc.toNat + 3 ≤ 255 := by decide
/-- For UnaryResults, PushAndPopResults, CallResult, PrintResults, CallThenReturnComesBack. -/
theorem witness_two_bytes : (atPc 0xFD).pc.toNat + 2 ≤ 255 := by decide
/-- For the JMP of ReturnAndJumpResults. -/
theorem witness_one_operand : (atPc 0xFE).pc.toNat + 1 ≤ 255 := by decide
theorem witness_ShiftResults : (regs4 0xFC 0x81 8 0 0).pc.toNat + 3 ≤ 255 ∧ 8 ≤ ((regs4 0xFC 0x81 8 0 0).reg 1).toNat := by
  decide
theorem witness_DivisionResults : (regs4 0xFC 0xFF 1 0 0).pc.toNat + 3 ≤ 255 ∧ (regs4 0xFC 0xFF 1 0 0).reg 1 ≠ 0x00#8 := by
  decide

/-- The six jumps with their conditions, as `ConditionalJumpResults` lists them, in a state with the given flags: which are
taken. -/
def takenIn (fl : Byte) : List Bool :=
  [fl.getLsbD 0, !fl.getLsbD 0, fl.getLsbD 1, fl.getLsbD 2, fl.getLsbD 2 || fl.getLsbD 0, fl.getLsbD 1 || fl.getLsbD 0]
/-- Every jump is taken in some state and not taken in another, each at the last address it allows. -/
theorem witness_ConditionalJumpResults :
    takenIn 0x07 = [true, false, true, true, true, true] ∧ takenIn 0x00 = [false, true, false, false, false, false] ∧
    ((atPc 0xFE).setFl 0x07).pc.toNat + 1 ≤ 255 ∧ ((atPc 0xFD).setFl 0x00).pc.toNat + 2 ≤ 255 := by decide
theorem witness_ConditionalJumpResults_listed : (Instr.jge, (0x01#8).getLsbD 1 || (0x01#8).getLsbD 0) ∈
    [(Instr.jeq, (0x01#8).getLsbD 0), (Instr.jne, !(0x01#8).getLsbD 0), (Instr.jgt, (0x01#8).getLsbD 1),
      (Instr.jlt, (0x01#8).getLsbD 2), (Instr.jle, (0x01#8).getLsbD 2 || (0x01#8).getLsbD 0),
      (Instr.jge, (0x01#8).getLsbD 1 || (0x01#8).getLsbD 0)] := by simp
theorem witness_JumpAfterCompareFollowsTheRelation : (regs4 0xFA 0x80 0x7F 0 0).pc.toNat + 5 ≤ 255 := by decide
theorem witness_HaltStopsWithPcOnIt_runs : (code [0x01] (atPc 0xFF)).run = .running ∧
    (code [0x01] (atPc 0xFF)).poll.serviceable = none ∧
    (code [0x01] (atPc 0xFF)).poll.memRead (code [0x01] (atPc 0xFF)).pc = 0x01#8 := by decide
theorem witness_HaltStopsWithPcOnIt_waits : v60.run = .running ∧ v60.poll.serviceable = some 0 := by decide
theorem witness_ZeroDivisorFaults : (regs4 0xFD 7 0 0 0).pc.toNat + 2 ≤ 255 ∧ (regs4 0xFD 7 0 0 0).reg 1 = 0x00#8 := by
  decide
theorem witness_RegisterIndexAboveSevenFaults :
    (Instr.div 0 8).wellFormed = false ∧ (atPc 0xFD).pc.toNat + operandCount (Instr.div 0 8).opcode ≤ 255 ∧
    (Instr.jeq 8).wellFormed = false ∧ (atPc 0xFE).pc.toNat + operandCount (Instr.jeq 8).opcode ≤ 255 := by decide
theorem witness_SuccessorAboveMemoryFaults_advance :
    (Instr.add 0 1).wellFormed = true ∧ (atPc 0xFD).pc.toNat + operandCount (Instr.add 0 1).opcode = 255 ∧
    needsNext (.add 0 1) (atPc 0xFD) ∧ ¬ dividesByZero (.add 0 1) (atPc 0xFD) :=
  ⟨by decide, by decide, .inl ⟨by decide, by decide⟩, by simp [dividesByZero]⟩
theorem witness_SuccessorAboveMemoryFaults_division :
    (Instr.div 0 7).wellFormed = true ∧ (atPc 0xFD).pc.toNat + operandCount (Instr.div 0 7).opcode = 255 ∧
    needsNext (.div 0 7) (atPc 0xFD) ∧ ¬ dividesByZero (.div 0 7) (atPc 0xFD) := by
  refine ⟨by decide, by decide, .inl ⟨by decide, by decide⟩, ?_⟩
  rintro ⟨a, j, h | h, hz⟩
  · injection h with _ h
    revert hz h
    fin_cases j <;> decide
  · cases h
theorem witness_SuccessorAboveMemoryFaults_call :
    (Instr.call 7).wellFormed = true ∧ (atPc 0xFE).pc.toNat + operandCount (Instr.call 7).opcode = 255 ∧
    needsNext (.call 7) (atPc 0xFE) ∧ ¬ dividesByZero (.call 7) (atPc 0xFE) :=
  ⟨by decide, by decide, .inr (.inl ⟨7, rfl⟩), by simp [dividesByZero]⟩
theorem witness_SuccessorAboveMemoryFaults_not_taken :
    (Instr.jeq 0).wellFormed = true ∧ (atPc 0xFE).pc.toNat + operandCount (Instr.jeq 0).opcode = 255 ∧
    needsNext (.jeq 0) (atPc 0xFE) ∧ ¬ dividesByZero (.jeq 0) (atPc 0xFE) :=
  ⟨by decide, by decide, .inr (.inr (.inl ⟨0, rfl, by decide⟩)), by simp [dividesByZero]⟩
theorem witness_OperandFetchAboveMemoryFaults : (code [0xA0] (atPc 0xFE)).run = .running ∧
    (code [0xA0] (atPc 0xFE)).poll.serviceable = none ∧ isOpcode ((code [0xA0] (atPc 0xFE)).poll.memRead 0xFE) = true ∧
    255 < (atPc 0xFE).pc.toNat + operandCount ((code [0xA0] (atPc 0xFE)).poll.memRead 0xFE) := by decide
theorem witness_UndefinedOpcodeFaults : (code [0x52] (atPc 0xFF)).run = .running ∧
    (code [0x52] (atPc 0xFF)).poll.serviceable = none ∧ (code [0x52] (atPc 0xFF)).poll.memRead 0xFF = 0x52#8 ∧
    0x52#8 ∉ opcodeMap.map Prod.fst := by decide
theorem witness_FaultsArePrecise : fresh.run = .running ∧
    ran fresh (fun t => t.run = .faulted .decodeFailure 0x00 0x00) = true := by decide
theorem witness_StepRunsTheDecodedInstruction : (code [0x01] (atPc 0xFF)).run = .running ∧
    (code [0x01] (atPc 0xFF)).poll.serviceable = none ∧ decode (code [0x01] (atPc 0xFF)).poll.fetchBytes = .ok (.hlt, []) := by
  refine ⟨by decide, by decide, rfl⟩
/-- The last byte at address 255, and a key press of the same cycle that is no part of the instruction. -/
theorem witness_StepRunsTheEncodedInstruction :
    let s := { code (encode (.add 0 1)) (atPc 0xFD) with inputs := [{ key := some 7, now := 0 }] }
    s.run = .running ∧ s.poll.serviceable = none ∧ s.pc.toNat + (encode (.add 0 1)).length ≤ 256 ∧
    ∀ k (h : k < (encode (.add 0 1)).length), s.poll.memRead (s.pc + BitVec.ofNat 8 k) = (encode (.add 0 1))[k] := by
  refine ⟨by decide, by decide, by decide, ?_⟩
  intro k h
  have h : k < 3 := h
  interval_cases k <;> rfl
theorem witness_PlacedWordRunsNext : (atPc 0xFD).pc.toNat + 2 ≤ 255 ∧ decodeTableWord 24 0x0100A0 = some (.add 0 1) := by
  decide
theorem witness_StoppedMachineIsFrozen : (fresh.setRun .halted).run ≠ .running := by decide
/-- A listed sample, and a free one. -/
theorem witness_PollEffects :
    (fresh.setInputs [{ key := some 0xFF, now := 1000 }]).nextInput = { key := some 0xFF, now := 1000 } ∧
    State.reset.nextInput = { key := Config.freeKey 0, now := Config.freeNow 0 } := ⟨rfl, rfl⟩
/-- One cycle takes the only sample listed; the next sample is a free one, of number 1. -/
theorem witness_SamplesNeverEnd : ∃ states : Nat → State,
    (∀ k < 1, (states k).run = .running ∧ step (states k) = .next (states (k + 1))) ∧ (states 0).inputs = [quiet] ∧
    (states 1).nextInput = { key := Config.freeKey 1, now := Config.freeNow 1 } := by
  obtain ⟨t, h, hn⟩ : ∃ t, step ((code [0x65, 0] fresh).setInputs [quiet]) = .next t ∧
      t.nextInput = { key := Config.freeKey 1, now := Config.freeNow 1 } := ⟨_, rfl, rfl⟩
  refine ⟨fun k => if k = 0 then (code [0x65, 0] fresh).setInputs [quiet] else t, ?_, rfl, hn⟩
  intro k hk
  obtain rfl : k = 0 := by omega
  exact ⟨rfl, h⟩
theorem witness_InterruptCheckPrecedesFetch_enters : v60.run = .running ∧ v60.poll.ie = true ∧
    v60.poll.reg 5 &&& v60.poll.reg 6 ≠ 0x00#8 := by decide
theorem witness_InterruptCheckPrecedesFetch_fetches : v60After.run = .running ∧ v60After.poll.ie = false ∧
    fresh.poll.reg 5 &&& fresh.poll.reg 6 = 0x00#8 := by decide
theorem witness_InterruptEntryEffects : (7 : Nat) < 8 ∧
    ∀ k : Nat, 1 ≤ k → k ≤ 9 → v60.reg 7 ≠ v60.reg 7 - BitVec.ofNat 8 k := by
  refine ⟨by decide, ?_⟩
  intro k h1 h9
  interval_cases k <;> decide
theorem witness_EntryThenReturnRestores : (0 : Nat) < 8 ∧ v60After.reg 7 = (v60.interruptEntry 0).reg 7 ∧
    ∀ k : Nat, 1 ≤ k → k ≤ 9 →
      v60After.memRead (v60.reg 7 - BitVec.ofNat 8 k) = (v60.interruptEntry 0).memRead (v60.reg 7 - BitVec.ofNat 8 k) := by
  refine ⟨by decide, by decide, ?_⟩
  intro k h1 h9
  interval_cases k <;> decide
theorem witness_InterruptsDoNotNest : v60After.run = .running ∧ v60After.ie = false ∧ ran v60After (fun t => t.ie) = true := by
  decide
theorem witness_ReturnForgetsTheHandlersRegisters : v60After.reg 7 = (v60After.setReg 0 0x99).reg 7 ∧
    v60After.mem = (v60After.setReg 0 0x99).mem ∧ v60After ≠ v60After.setReg 0 0x99 := by decide
theorem witness_PushThenPopRestores : (6 : RegIndex) ≠ 7 ∧ (atPc 0xFB).pc.toNat + 4 ≤ 255 := by decide
/-- The state right after the CALL meets the inner hypotheses, and so does one in which the callee changed a register. -/
theorem witness_CallThenReturnComesBack : ∃ c, exec (.call (regByte 1)) (regs4 0xFD 0 0x12 0 0) = .next c ∧
    (c.setReg 0 9).reg 7 = c.reg 7 ∧ (c.setReg 0 9).memRead ((c.setReg 0 9).reg 7) = c.memRead ((c.setReg 0 9).reg 7) :=
  ⟨_, rfl, by decide, by decide⟩
theorem witness_StoredByteIsFetchedNext : (regs4 0xFC 0xFF 1 0 0).pc.toNat + 3 ≤ 255 ∧
    (regs4 0xFC 0xFF 1 0 0).reg 0 = (regs4 0xFC 0xFF 1 0 0).pc + 3 := by decide
theorem witness_RegisterFrame : ∃ t, exec (.add 0 1) (regs4 0 8 9 0 0) = .next t ∧ t.reg 0 ≠ (regs4 0 8 9 0 0).reg 0 :=
  ⟨_, rfl, by decide⟩
theorem witness_FlagFrame : ∃ t, exec (.ldi 0 1) fresh = .next t ∧ (∀ a b, Instr.ldi 0 1 ≠ .cmp a b) ∧
    Instr.ldi 0 1 ≠ .iret := ⟨_, rfl, by simp, by simp⟩
theorem witness_NonStoringMemoryFrame : ∃ t, exec (.cmp 0 1) fresh = .next t ∧ ¬ storesToMemory (.cmp 0 1) :=
  ⟨_, rfl, by simp [storesToMemory]⟩
theorem witness_StoringMemoryFrame_store : ∃ t, exec (.st (regByte 0) (regByte 1)) fresh = .next t ∧
    0xFF#8 ≠ fresh.reg 0 := ⟨_, rfl, by decide⟩
theorem witness_StoringMemoryFrame_stack : (∃ t, exec (.push 0) fresh = .next t) ∧
    (∃ t, exec (.call 0) fresh = .next t) ∧ 0xF4#8 ≠ fresh.decSp.reg 7 := ⟨⟨_, rfl⟩, ⟨_, rfl⟩, by decide⟩
theorem witness_ControlStateFrame : ∃ t, exec (.not 0) fresh = .next t ∧ Instr.not 0 ≠ .iret ∧
    (∀ a, Instr.not 0 ≠ .prn a) ∧ (∀ a, Instr.not 0 ≠ .pra a) ∧ Instr.not 0 ≠ .hlt :=
  ⟨_, rfl, by simp, by simp, by simp, by simp⟩
theorem witness_PcAdvance : ∃ t, (atPc 0xFC).run = .running ∧ exec (.add 0 1) (atPc 0xFC) = .next t ∧ t.run = .running ∧
    setsPcBit (Instr.add 0 1).opcode = false ∧ Instr.add 0 1 ≠ .hlt := ⟨_, by decide, rfl, by decide, by decide, by simp⟩
/-- A running state whose step is an interrupt entry; a state halted on its HLT. -/
theorem witness_StepKeepsTheInvariant : v60.inv ∧ (∃ t, step v60 = .next t) ∧ (code [0x01] (fresh.setRun .halted)).inv :=
  ⟨⟨by decide, trivial⟩, ⟨_, rfl⟩, by decide, rfl⟩
/-- A running state whose step faults at the edge of memory. -/
theorem witness_StepKeepsTheInvariant_fault :
    (code [0x65, 0] (atPc 0xFE)).inv ∧ ∃ t, step (code [0x65, 0] (atPc 0xFE)) = .next t ∧ t.inv :=
  ⟨⟨by decide, trivial⟩, _, rfl, by decide, rfl, rfl, .inc 0, ⟨[], rfl⟩, by decide, by simp [dividesByZero], by decide,
    .inl ⟨by decide, by simp⟩⟩
theorem witness_OutputIsNeverReadBack : ∃ t, step (fresh.emit (.num 1)) = .next t := ⟨_, rfl⟩
theorem witness_OutputIsAppendOnly :
    ran (code [0x47, 0] (regs4 0 0x11 0 0 0)) (fun t => t.out ≠ []) = true := by decide
theorem witness_LastTickIsHidden :
    let s := fresh.setInputs [{ key := none, now := 500 }]
    s.tick s.nextInput.now = false ∧ (s.setTLast 100).tick s.nextInput.now = false ∧ ran s (fun _ => true) = true := by decide

end Sys2Proof.Tests
end

section
namespace Sys2Proof
open Sys2Proof.Machine

/-- Settles O10: reading a written register file splits on whether the register read is the one written
(`State.setReg_reg`), and the projections of `State.setReg` give the frame. -/
theorem eightPlainRegisters : Obligations.EightPlainRegisters := by
  unfold Obligations.EightPlainRegisters
  intro s i v
  exact ⟨fun k => State.setReg_reg s i k v, State.setReg_mem s i v, State.setReg_pc s i v, State.setReg_fl s i v,
    State.setReg_ie s i v⟩

end Sys2Proof
end

section
namespace Sys2Proof
open Sys2Proof.Machine

/-- Settles O8: reading written memory splits on whether the address read is the one written
(`State.memRead_memWrite`), and the projections of `State.memWrite` give the frame. -/
theorem memoryReadAfterWrite : Obligations.MemoryReadAfterWrite := by
  unfold Obligations.MemoryReadAfterWrite
  intro s addr v
  exact ⟨fun a => State.memRead_memWrite s addr a v, State.memWrite_regs s addr v, State.memWrite_pc s addr v,
    State.memWrite_fl s addr v, State.memWrite_ie s addr v, State.memWrite_run s addr v, State.memWrite_tLast s addr v,
    State.memWrite_out s addr v, State.memWrite_inputs s addr v, State.memWrite_samples s addr v⟩

end Sys2Proof
end

section
namespace Sys2Proof.Machine

/-! ### The interrupt check (40_execution_cycle.md R72; 60_exceptions.md R171, R177) -/

theorem lowestLine_eq_find_range (m : Byte) : lowestLine m = (List.range 8).find? m.getLsbD := rfl

theorem lowestLine_eq_some {m : Byte} {l : Nat} :
    lowestLine m = some l ↔ m.getLsbD l = true ∧ l < 8 ∧ ∀ k < l, m.getLsbD k = false := by
  simp only [lowestLine_eq_find_range, List.find?_range_eq_some, List.mem_range, Bool.not_eq_true']

theorem lowestLine_eq_none {m : Byte} : lowestLine m = none ↔ m = 0#8 := by
  simp only [lowestLine_eq_find_range, List.find?_range_eq_none, Bool.not_eq_true']
  constructor
  · intro hbits
    apply BitVec.eq_of_getLsbD_eq
    intro k hk
    simpa using hbits k hk
  · rintro rfl k -
    simp

/-- If any line is pending, one of them is the lowest, so that the entry always has a line to service. -/
theorem exists_lowestLine {m : Byte} (h : m ≠ 0#8) : ∃ l, lowestLine m = some l :=
  Option.ne_none_iff_exists'.mp (mt lowestLine_eq_none.mp h)

theorem State.serviceable_of_ie {s : State} (h : s.ie = true) : s.serviceable = lowestLine s.pending := by
  simp [State.serviceable, h]

theorem State.serviceable_eq_none {s : State} : s.serviceable = none ↔ s.ie = false ∨ s.pending = 0#8 := by
  cases h : s.ie with
  | false => simp [State.serviceable, h]
  | true => simp [State.serviceable_of_ie h, lowestLine_eq_none]

/-! ### The lines after an interrupt entry (60_exceptions.md R179) -/

theorem State.clearLine_reg (s : State) (l : Nat) (r : RegIndex) :
    (s.clearLine l).reg r = if r = IS then s.reg IS &&& ~~~(bitMask l) else s.reg r :=
  State.setReg_reg s IS r _

theorem State.interruptEntry_reg (s : State) (l : Nat) (r : RegIndex) :
    (s.interruptEntry l).reg r =
      if r = SP then s.reg SP - 9 else if r = IS then s.reg IS &&& ~~~(bitMask l) else s.reg r := by
  have hSP : SP ≠ IS := by decide
  simp [State.interruptEntry, State.jumpVector, State.pushFrame_reg, State.clearLine_reg, hSP]

/-- The serviced line is lowered, the other lines stay as they are. -/
theorem State.interruptEntry_line (s : State) (l : Nat) {k : Nat} (hk : k < 8) :
    ((s.interruptEntry l).reg IS).getLsbD k = (decide (k ≠ l) && (s.reg IS).getLsbD k) := by
  have hIS : (s.interruptEntry l).reg IS = s.reg IS &&& ~~~(bitMask l) := State.interruptEntry_reg s l IS
  rw [hIS, BitVec.getLsbD_and, BitVec.getLsbD_not, bitMask_bit l k hk]
  simp [hk, Bool.and_comm]

end Sys2Proof.Machine
end

section
namespace Sys2Proof
open Sys2Proof.Machine

/-- Settles O41: with `ie` set and a line pending there is a lowest line, which the step enters (`step_entry`); otherwise
nothing is serviceable and the step fetches (`step_fetch`). -/
theorem interruptCheckPrecedesFetch : Obligations.InterruptCheckPrecedesFetch := by
  unfold Obligations.InterruptCheckPrecedesFetch
  intro s hrun
  constructor
  · intro hie hpending
    obtain ⟨l, hl⟩ := exists_lowestLine hpending
    obtain ⟨hbit, hlt, hlower⟩ := lowestLine_eq_some.mp hl
    have hserviced : s.poll.serviceable = some l := (State.serviceable_of_ie hie).trans hl
    exact ⟨l, hlt, hbit, hlower, step_entry hrun hserviced, State.interruptEntry_ie s.poll l,
      fun k hk => State.interruptEntry_line s.poll l hk⟩
  · intro hnone
    exact step_fetch hrun (State.serviceable_eq_none.mpr hnone)

/-- Settles O35: a machine that is not running stands still (`step_stopped`), and the run statuses that HLT and a fault
leave are not `running`; the reset line sets it to that of the reset state. -/
theorem stoppedMachineIsFrozen : Obligations.StoppedMachineIsFrozen := by
  unfold Obligations.StoppedMachineIsFrozen
  refine ⟨fun s hstopped => step_stopped hstopped, fun s => ?_, fun s c => ?_, fun s now => rfl⟩
  · have hhalted : (s.setRun .halted).run ≠ .running := by simp
    exact ⟨s.setRun .halted, rfl, step_stopped hhalted⟩
  · have hfaulted : (s.fault c).run ≠ .running := by simp
    exact ⟨s.fault c, rfl, step_stopped hfaulted⟩

end Sys2Proof
end

section
namespace Sys2Proof.Machine

/-! ### The completing CALL and RET (43_control_transfer.md R131, R132) -/

/-- A push leaves its byte on top of the stack (42_data_movement.md R120), also where SP wraps. -/
@[simp] theorem State.push_top (s : State) (v : Byte) : (s.push v).top = v := by
  simp [State.top, State.push_memRead]

@[simp] theorem State.setPc_top (s : State) (v : Byte) : (s.setPc v).top = s.top := rfl

theorem exec_call_pass {s : State} {i : RegIndex} (hpc : s.pc.toNat + 2 ≤ 255) :
    exec (.call (regByte i)) s = .next ((s.push (s.pc + 2)).setPc (s.decSp.reg i)) := by
  have hoperand : s.pc.toNat + 1 ≤ 255 := by omega
  have hnext : s.pc.toNat + 1 + 1 ≤ 255 := by omega
  exact (formR_pass hoperand).trans (checkNext_pass hnext)

theorem exec_ret (s : State) : exec .ret s = .next s.popPc := rfl

end Sys2Proof.Machine
end

section
namespace Sys2Proof
open Sys2Proof.Machine

/-- Settles O47: CALL pushes the successor address (`exec_call_pass`), RET pops the byte that `t` has on top of its stack
(`exec_ret`), which is that address (`State.push_top`), and the increment of SP undoes the decrement, modulo 256. -/
theorem callThenReturnComesBack : Obligations.CallThenReturnComesBack := by
  unfold Obligations.CallThenReturnComesBack
  intro s i hpc
  refine ⟨_, exec_call_pass hpc, fun t hsp hbyte => ⟨t.popPc, exec_ret t, ?_, ?_⟩⟩
  · calc t.popPc.pc
        = t.memRead (t.reg 7) := State.popPc_pc t
      _ = ((s.push (s.pc + 2)).setPc (s.decSp.reg i)).top := by rw [hbyte, hsp]; rfl
      _ = s.pc + 2 := by rw [State.setPc_top, State.push_top]
  · calc t.popPc.reg 7
        = t.reg 7 + 1 := State.popPc_reg t SP
      _ = (s.push (s.pc + 2)).reg 7 + 1 := by rw [hsp, State.setPc_reg]
      _ = s.reg 7 - 1 + 1 := by rw [State.push_reg s _ 7]; rfl
      _ = s.reg 7 := BitVec.sub_add_cancel _ _

end Sys2Proof
end

section
namespace Sys2Proof.Machine

/-! ### Fetching HLT (40_execution_cycle.md R73; 44_system.md R145) -/

/-- The fetch and decode of a state in which an instruction stands at the pc go on with that instruction. -/
theorem fetchExecute_of_decode {s : State} {i : Instr} {rest : List Byte} (h : decode s.fetchBytes = .ok (i, rest)) :
    fetchExecute s = exec i s := by
  rw [fetchExecute, h]

theorem exec_hlt (s : State) : exec .hlt s = .next (s.setRun .halted) := rfl

/-- HLT has no operands, so that the bytes after it, or their absence at the end of memory, do not matter. -/
theorem decode_hlt (rest : List Byte) : decode (0x01#8 :: rest) = .ok (.hlt, rest) :=
  Laws.decode_known (f := .z .hlt) rfl

theorem fetchExecute_hlt {s : State} (h : s.memRead s.pc = 0x01#8) : fetchExecute s = .next (s.setRun .halted) := by
  have hdecode : ∃ rest, decode s.fetchBytes = .ok (.hlt, rest) := by
    rw [State.fetchBytes, h]
    exact ⟨_, decode_hlt _⟩
  obtain ⟨rest, hrest⟩ := hdecode
  exact (fetchExecute_of_decode hrest).trans (exec_hlt s)

end Sys2Proof.Machine
end

section
namespace Sys2Proof
open Sys2Proof.Machine

/-- Settles O23: with nothing to service the step fetches (`step_fetch`), HLT's byte decodes to it whatever follows
(`fetchExecute_hlt`), and the poll leaves the pc; a line to service comes first (`step_entry`), and a halted machine
stands still (`step_stopped`). -/
theorem haltStopsWithPcOnIt : Obligations.HaltStopsWithPcOnIt := by
  unfold Obligations.HaltStopsWithPcOnIt
  intro s
  refine ⟨rfl, exec_hlt s, fun hrun hnone hbyte => ⟨?_, ?_⟩, fun hrun l hl => step_entry hrun hl, ?_, fun now => rfl⟩
  · have hfetched : s.poll.memRead s.poll.pc = 0x01#8 := by rw [State.poll_pc, hbyte]
    exact (step_fetch hrun hnone).trans (fetchExecute_hlt hfetched)
  · exact (State.setRun_pc s.poll .halted).trans (State.poll_pc s)
  · have hhalted : (s.setRun .halted).run ≠ .running := by simp
    exact step_stopped hhalted

end Sys2Proof
end

section
namespace Sys2Proof.Machine

/-! ### What the poll adds to IS and stores at `KEY_ADDR` (60_exceptions.md R172, R173) -/

theorem bitMask_inputLine : bitMask cfg.inputLine = 0x02#8 := rfl

theorem bitMask_timerLine : bitMask cfg.timerLine = 0x01#8 := rfl

/-- `State.poll_memRead` split on the cell first: the cells but `KEY_ADDR` do not depend on the sample. -/
theorem State.poll_memRead_eq_getD (s : State) (a : Byte) :
    s.poll.memRead a = if a = cfg.keyAddr then s.nextInput.key.getD (s.memRead a) else s.memRead a := by
  rw [State.poll_memRead]
  cases s.nextInput.key with
  | none => simp only [Option.getD_none, ite_self]
  | some b => simp only [Option.getD_some]

end Sys2Proof.Machine
end

section
namespace Sys2Proof
open Sys2Proof.Machine

/-- Settles O37: the poll changes of the registers IS only, to which it adds the bits of the two lines
(`State.poll_reg`), and of the cells `KEY_ADDR` only (`State.poll_memRead_eq_getD`); the projections of `State.poll` give
the frame. None of these lemmas looks at `ie`, IM or the bits that IS has already. -/
theorem pollEffects : Obligations.PollEffects := by
  unfold Obligations.PollEffects
  intro s key now hsample
  refine ⟨fun r => ?_, fun a => ?_, State.poll_pc s, State.poll_fl s, State.poll_ie s, State.poll_run s, State.poll_out s⟩
  · have hreg := State.poll_reg s r
    rw [hsample, bitMask_inputLine, bitMask_timerLine] at hreg
    exact hreg
  · have hcell := State.poll_memRead_eq_getD s a
    rw [hsample] at hcell
    exact hcell

end Sys2Proof
end

section
namespace Sys2Proof

/-! ### The opcode map read both ways (30_encoding.md R50 to R58) -/

/-- The number of operand bytes that a form reads. -/
def Form.arity : Form → Nat
  | .z _ => 0
  | .r _ => 1
  | .rr _ => 2
  | .ri _ => 2

/-- Every instruction that the form makes of operand bytes is encoded as the opcode followed by those bytes. -/
def Form.MakesWith (op : Byte) : Form → Prop
  | .z i => encode i = [op]
  | .r mk => ∀ a, encode (mk a) = [op, a]
  | .rr mk => ∀ a b, encode (mk a b) = [op, a, b]
  | .ri mk => ∀ a b, encode (mk a b) = [op, a, b]

/-- In each row of the map the form makes instructions of the row's opcode byte. -/
theorem opcodeMap_makesWith : ∀ row ∈ opcodeMap, row.2.MakesWith row.1 := by
  simp [opcodeMap, Form.MakesWith, encode, Instr.opcode, Instr.operands]

/-- In each row of the map bits 7:6 of the opcode byte are the number of operand bytes that the form reads. -/
theorem opcodeMap_arity : ∀ row ∈ opcodeMap, row.2.arity = operandCount row.1 := by decide

/-- The bytes that a form reads are those of the instruction it makes, with the bytes left over behind them. -/
theorem Form.MakesWith.bytes_eq {op : Byte} {f : Form} {bytes rest : List Byte} {i : Instr} (hf : f.MakesWith op)
    (hread : f.read bytes = .ok (i, rest)) : op :: bytes = encode i ++ rest := by
  unfold Form.read at hread
  split at hread <;> cases hread
  case h_1 => rw [show encode i = [op] from hf, List.singleton_append]
  case h_2 mk a => rw [hf a]; rfl
  case h_3 mk a b => rw [hf a b]; rfl
  case h_4 mk a b => rw [hf a b]; rfl

/-- Reading a form fails exactly where its operand bytes run out. -/
theorem Form.read_eq_error {f : Form} {bytes : List Byte} {e : DecodeError} :
    f.read bytes = .error e ↔ e = .truncated ∧ bytes.length < f.arity := by
  cases f with
  | z i => simp [Form.read, Form.arity]
  | r mk => match bytes with
    | [] => simp [Form.read, Form.arity, eq_comm]
    | _ :: _ => simp [Form.read, Form.arity]
  | rr mk => match bytes with
    | [] | [_] => simp [Form.read, Form.arity, eq_comm]
    | _ :: _ :: _ => simp [Form.read, Form.arity]
  | ri mk => match bytes with
    | [] | [_] => simp [Form.read, Form.arity, eq_comm]
    | _ :: _ :: _ => simp [Form.read, Form.arity]

/-- The lookup answers a form, of the row's opcode and operand count, exactly on opcode bytes. -/
theorem lookupOpcode_cases (ir : Byte) :
    (isOpcode ir = false ∧ lookupOpcode ir = none) ∨
    (isOpcode ir = true ∧ ∃ f, lookupOpcode ir = some f ∧ f.MakesWith ir ∧ f.arity = operandCount ir) := by
  cases hf : lookupOpcode ir with
  | none => exact .inl ⟨by simp [isOpcode, hf], rfl⟩
  | some f =>
    have hrow : (ir, f) ∈ opcodeMap := Laws.findForm_mem hf
    exact .inr ⟨by simp [isOpcode, hf], f, rfl, opcodeMap_makesWith _ hrow, opcodeMap_arity _ hrow⟩

theorem isOpcode_iff_mem_opcodeMap {ir : Byte} : isOpcode ir = true ↔ ir ∈ opcodeMap.map Prod.fst :=
  Laws.findForm_isSome opcodeMap

/-! ### What the decoder answers -/

theorem decode_eq_ok {bytes rest : List Byte} {i : Instr} (h : decode bytes = .ok (i, rest)) :
    bytes = encode i ++ rest := by
  match bytes with
  | ir :: bytes =>
    rcases lookupOpcode_cases ir with ⟨-, hf⟩ | ⟨-, f, hf, hmakes, -⟩
    · rw [Laws.decode_unknown hf] at h
      cases h
    · rw [Laws.decode_known hf] at h
      exact hmakes.bytes_eq h

theorem decode_eq_unknownOpcode {ir o : Byte} {bytes : List Byte} :
    decode (ir :: bytes) = .error (.unknownOpcode o) ↔ ir = o ∧ isOpcode ir = false := by
  rcases lookupOpcode_cases ir with ⟨hno, hf⟩ | ⟨hop, f, hf, -, -⟩
  · simp [Laws.decode_unknown hf, hno]
  · simp [Laws.decode_known hf, hop, Form.read_eq_error]

theorem decode_eq_truncated {ir : Byte} {bytes : List Byte} :
    decode (ir :: bytes) = .error .truncated ↔ isOpcode ir = true ∧ bytes.length < operandCount ir := by
  rcases lookupOpcode_cases ir with ⟨hno, hf⟩ | ⟨hop, f, hf, -, harity⟩
  · simp [Laws.decode_unknown hf, hno]
  · simp [Laws.decode_known hf, hop, Form.read_eq_error, harity]

theorem decode_encode (i : Instr) (rest : List Byte) : decode (encode i ++ rest) = .ok (i, rest) := by
  cases i <;> rfl

theorem opcodeFields (i : Instr) : Laws.OpcodeFields.Statement i := by
  open Laws.OpcodeFields in
  cases i
  exacts [hlt, ret, iret, push _, pop _, prn _, pra _, call _, jmp _, jeq _, jne _, jgt _, jlt _, jle _, jge _, inc _,
    dec _, not _, ldi _ _, ld _ _, st _ _, add _ _, sub _ _, mul _ _, div _ _, mod _ _, cmp _ _, and _ _, or _ _,
    xor _ _, shl _ _, shr _ _, addi _ _]

theorem isOpcode_opcode (i : Instr) : isOpcode i.opcode = true := by
  obtain ⟨-, -, -, hop, -⟩ := opcodeFields i
  exact hop

theorem operandCount_opcode (i : Instr) : operandCount i.opcode = i.operands.length := by
  obtain ⟨hcount, -⟩ := opcodeFields i
  exact hcount

theorem setsPcBit_opcode (i : Instr) : setsPcBit i.opcode = Laws.setsPc i := by
  obtain ⟨-, -, hbit, -, -⟩ := opcodeFields i
  exact hbit

end Sys2Proof
end

section
namespace Sys2Proof

/-- Settles O2: an instruction's own bytes decode to it, case by case (`decode_encode`); the other way the lookup gives a
row of the map, whose form makes instructions of those bytes (`decode_eq_ok`). -/
theorem decodeAndEncodeAreInverse : Obligations.DecodeAndEncodeAreInverse := by
  unfold Obligations.DecodeAndEncodeAreInverse
  exact ⟨decode_encode, fun _ _ _ h => decode_eq_ok h⟩

/-- Settles O3, by induction on the list of instructions: each turn of `decodeAll` reads one off (`decode_encode`). -/
theorem programImageReadsBack : Obligations.ProgramImageReadsBack := by
  unfold Obligations.ProgramImageReadsBack
  intro is
  induction is with
  | nil => rfl
  | cons i is ih =>
    have hfirst : decode (i.opcode :: (i.operands ++ is.flatMap encode)) = .ok (i, is.flatMap encode) :=
      decode_encode i _
    simp only [List.flatMap_cons, List.length_cons, encode, List.cons_append, decodeAll, hfirst] at ih ⊢
    rw [ih]

/-- Settles O4: the byte is refused as unknown exactly when the map does not hold it (`decode_eq_unknownOpcode`), and the
map holds the 33 bytes listed; an instruction cut short has fewer operand bytes than its opcode counts. -/
theorem decoderRejectsByName : Obligations.DecoderRejectsByName := by
  unfold Obligations.DecoderRejectsByName
  constructor
  · intro ir rest
    rw [decode_eq_unknownOpcode, ← Bool.not_eq_true, isOpcode_iff_mem_opcodeMap]
    simp only [true_and]
    rfl
  · intro i k hk
    cases k with
    | zero => rfl
    | succ n =>
      have hn : n < i.operands.length := by simpa [encode] using hk
      have hcut : (i.operands.take n).length < operandCount i.opcode := by
        rw [operandCount_opcode, List.length_take]; omega
      exact decode_eq_truncated.mpr ⟨isOpcode_opcode i, hcut⟩

/-- Settles O1: each word is the encoding of its instruction, whatever follows (`decode_encode`). -/
theorem writtenWordsDecode : Obligations.WrittenWordsDecode := by
  unfold Obligations.WrittenWordsDecode
  intro rest
  exact ⟨decode_encode (.ldi 0 8) rest, decode_encode (.add 0 1) rest, decode_encode (.prn 0) rest,
    decode_encode .hlt rest, decode_encode .iret rest, decode_encode (.st 0 1) rest, decode_encode (.jne 3) rest,
    decode_encode (.addi 2 0xFF) rest⟩

end Sys2Proof
end

section
namespace Sys2Proof.Machine

/-! ### The kinds of change an instruction makes -/

/-- What an instruction that does not fault can do to a state, by the part of it that is written: the rows of 10_state.md
R12, R16, R21, R24 and 20_memory.md R33. The pc is open here; `Effect.advances` has it. -/
inductive Change (s : State) : Instr → State → Prop
  | halt : Change s .hlt (s.setRun .halted)
  | ret : Change s .ret s.popPc
  | iret : Change s .iret s.interruptReturn
  | jump (i : Instr) (p : Byte) : Change s i (s.setPc p)
  | write {i : Instr} {r : RegIndex} (v p : Byte) (hd : destination i = some (regByte r)) :
      Change s i ((s.setReg r v).setPc p)
  | pop (r : RegIndex) (p : Byte) : Change s (.pop (regByte r)) ((s.popReg r).setPc p)
  | push (a v p : Byte) : Change s (.push a) ((s.push v).setPc p)
  | call (a v p : Byte) : Change s (.call a) ((s.push v).setPc p)
  | store (r q : RegIndex) (p : Byte) :
      Change s (.st (regByte r) (regByte q)) ((s.memWrite (s.reg r) (s.reg q)).setPc p)
  | compare (a b v p : Byte) : Change s (.cmp a b) ((s.setFl v).setPc p)
  | printNum (a : Byte) (e : OutEvent) (p : Byte) : Change s (.prn a) ((s.emit e).setPc p)
  | printChr (a : Byte) (e : OutEvent) (p : Byte) : Change s (.pra a) ((s.emit e).setPc p)

theorem EffectR.change {i : Instr} {a : Byte} {v : RegIndex → Byte} {s t : State}
    (h : EffectR a (fun r => s.setReg r (v r)) s t) (hd : destination i = some a) : Change s i t := by
  obtain ⟨r, rfl, -, rfl⟩ := h
  exact .write _ _ hd

theorem EffectRI.change {i : Instr} {a : Byte} {v : RegIndex → Byte} {s t : State}
    (h : EffectRI a (fun r => s.setReg r (v r)) s t) (hd : destination i = some a) : Change s i t := by
  obtain ⟨r, rfl, -, rfl⟩ := h
  exact .write _ _ hd

theorem EffectRR.change {i : Instr} {a b : Byte} {v : RegIndex → RegIndex → Byte} {s t : State}
    (h : EffectRR a b (fun r q => s.setReg r (v r q)) s t) (hd : destination i = some a) : Change s i t := by
  obtain ⟨r, q, rfl, -, -, rfl⟩ := h
  exact .write _ _ hd

theorem EffectJ.change {i : Instr} {cond : Byte → Bool} {a : Byte} {s t : State} (h : EffectJ cond a s t) :
    Change s i t := by
  obtain ⟨r, -, ⟨-, rfl⟩ | ⟨-, -, rfl⟩⟩ := h
  · exact .jump i _
  · exact .jump i _

theorem Effect.change {i : Instr} {s t : State} (h : Effect i s t) : Change s i t := by
  cases i with
  | hlt => obtain rfl := h; exact .halt
  | ret => obtain rfl := h; exact .ret
  | iret => obtain rfl := h; exact .iret
  | push a => obtain ⟨r, -, -, rfl⟩ := h; exact .push a _ _
  | pop a => obtain ⟨r, rfl, -, rfl⟩ := h; exact .pop r _
  | prn a => obtain ⟨r, -, -, rfl⟩ := h; exact .printNum a _ _
  | pra a => obtain ⟨r, -, -, rfl⟩ := h; exact .printChr a _ _
  | call a => obtain ⟨r, -, -, rfl⟩ := h; exact .call a _ _
  | jmp a => obtain ⟨r, -, rfl⟩ := h; exact .jump _ _
  | jeq a | jne a | jgt a | jlt a | jle a | jge a => exact EffectJ.change h
  | inc a | dec a | not a => exact EffectR.change h rfl
  | ldi a imm | addi a imm => exact EffectRI.change h rfl
  | st a b => obtain ⟨r, q, rfl, rfl, -, rfl⟩ := h; exact .store r q _
  | cmp a b => obtain ⟨r, q, -, -, -, rfl⟩ := h; exact .compare a b _ _
  | ld a b | add a b | sub a b | mul a b | div a b | mod a b | and a b | or a b | xor a b | shl a b | shr a b =>
    exact EffectRR.change h rfl

/-- Everything an instruction can do, by kind: it faults, or it makes its change. -/
theorem exec_change {i : Instr} {s t : State} (h : exec i s = .next t) : (∃ c, s.fault c = t) ∨ Change s i t :=
  (exec_next h).imp (fun ⟨c, _, hc⟩ => ⟨c, hc⟩) Effect.change

/-! ### What each kind of change leaves as it was -/

section
variable {i : Instr} {s t : State} (h : Change s i t)
include h

theorem Change.reg {r : RegIndex} (hne : t.reg r ≠ s.reg r) :
    destination i = some (regByte r) ∨ (r = 7 ∧ movesStack i) ∨ (r ≠ 7 ∧ i = .iret) := by
  cases h with
  | halt | jump | store | compare | printNum | printChr => exact absurd rfl hne
  | iret => by_cases hr : r = 7 <;> simp [hr, movesStack]
  | write v p hd =>
    rename_i q
    have hq : r = q := by
      by_contra hr
      exact hne (State.setReg_reg_other s v hr)
    exact .inl (hq ▸ hd)
  | pop q p =>
    by_cases hr : r = 7
    · exact .inr (.inl ⟨hr, by simp [movesStack]⟩)
    · have hq : r = q := by
        by_contra hrq
        exact hne (by simp [SP, hr, hrq])
      exact .inl (by rw [hq]; rfl)
  | ret | push | call =>
    have hr : r = 7 := by
      by_contra hr
      exact hne (by simp [SP, hr])
    exact .inr (.inl ⟨hr, by simp [movesStack]⟩)

theorem Change.fl (hcmp : ∀ a b, i ≠ .cmp a b) (hiret : i ≠ .iret) : t.fl = s.fl := by
  cases h with
  | compare a b => exact absurd rfl (hcmp a b)
  | iret => exact absurd rfl hiret
  | _ => rfl

theorem Change.ie (hiret : i ≠ .iret) : t.ie = s.ie := by
  cases h with
  | iret => exact absurd rfl hiret
  | _ => rfl

theorem Change.run (hhlt : i ≠ .hlt) : t.run = s.run := by
  cases h with
  | halt => exact absurd rfl hhlt
  | iret => exact State.interruptReturn_run s
  | _ => rfl

theorem Change.out : t.out = s.out ∨ ∃ e, t.out = s.out ++ [e] ∧ ((∃ a, i = .prn a) ∨ ∃ a, i = .pra a) := by
  cases h with
  | printNum a e => exact .inr ⟨e, rfl, .inl ⟨a, rfl⟩⟩
  | printChr a e => exact .inr ⟨e, rfl, .inr ⟨a, rfl⟩⟩
  | iret => exact .inl (State.interruptReturn_out s)
  | _ => exact .inl rfl

/-- No instruction touches the timer or the coming samples. -/
theorem Change.samples : t.tLast = s.tLast ∧ t.inputs = s.inputs ∧ t.samples = s.samples := by
  cases h with
  | iret => simp
  | _ => exact ⟨rfl, rfl, rfl⟩

theorem Change.memRead (hstore : ¬ storesToMemory i) (a : Byte) : t.memRead a = s.memRead a := by
  cases h with
  | store | push | call => exact absurd (by simp [storesToMemory]) hstore
  | iret => exact State.interruptReturn_memRead s a
  | _ => rfl

theorem Change.wf (hmem : Memory.wf s.mem = true) : Memory.wf t.mem = true := by
  cases h with
  | store r q => exact State.memWrite_wf (s.reg r) (s.reg q) hmem
  | push a v | call a v => exact State.push_wf v hmem
  | iret => rwa [State.interruptReturn_mem]
  | _ => exact hmem

end

theorem State.push_memRead_other (s : State) (v : Byte) {a : Byte} (h : a ≠ s.decSp.reg 7) :
    (s.push v).memRead a = s.memRead a := by
  have ha : a ≠ s.reg SP - 1 := by simpa [SP] using h
  rw [State.push_memRead, if_neg ha]

/-! ### Operands and pc of an instruction that does not fault -/

/-- An instruction that has its effect names registers only. -/
theorem Effect.wellFormed {i : Instr} {s t : State} (h : Effect i s t) : i.wellFormed = true := by
  cases i with
  | hlt | ret | iret => rfl
  | push a | pop a | prn a | pra a | call a | jmp a | jeq a | jne a | jgt a | jlt a | jle a | jge a | inc a | dec a | not a
  | ldi a imm | addi a imm =>
    obtain ⟨r, rfl, -⟩ := h
    exact regOperandOk_regByte r
  | ld a b | st a b | add a b | sub a b | mul a b | div a b | mod a b | cmp a b | and a b | or a b | xor a b | shl a b
  | shr a b =>
    obtain ⟨r, q, rfl, rfl, -⟩ := h
    exact Bool.and_eq_true_iff.mpr ⟨regOperandOk_regByte r, regOperandOk_regByte q⟩

/-- An instruction that does not set the pc itself ends on the address after its last byte, which memory has
(40_execution_cycle.md R78, R80). -/
theorem Effect.advances {i : Instr} {s t : State} (h : Effect i s t) (hbit : Laws.setsPc i = false) (hhlt : i ≠ .hlt) :
    s.pc.toNat + (i.operands.length + 1) ≤ 255 ∧ t.pc = s.pc + BitVec.ofNat 8 (i.operands.length + 1) := by
  cases i with
  | hlt => exact absurd rfl hhlt
  | ret | iret | call a | jmp a | jeq a | jne a | jgt a | jlt a | jle a | jge a => cases hbit
  | push a | pop a | prn a | pra a | inc a | dec a | not a | ldi a imm | addi a imm =>
    obtain ⟨r, -, hpc, rfl⟩ := h
    exact ⟨hpc, rfl⟩
  | ld a b | st a b | add a b | sub a b | mul a b | div a b | mod a b | cmp a b | and a b | or a b | xor a b | shl a b
  | shr a b =>
    obtain ⟨r, q, -, -, hpc, rfl⟩ := h
    exact ⟨hpc, rfl⟩

/-- A jump that is not taken has its successor address in memory. -/
theorem EffectJ.next_in_memory {cond : Byte → Bool} {a : Byte} {s t : State} (h : EffectJ cond a s t)
    (hfl : cond s.fl = false) : s.pc.toNat + 2 ≤ 255 := by
  obtain ⟨r, -, ⟨htaken, -⟩ | ⟨-, hpc, -⟩⟩ := h
  · rw [hfl] at htaken
    cases htaken
  · exact hpc

/-- An instruction that needs its successor address and has its effect finds it in memory (40_execution_cycle.md R80). -/
theorem Effect.next_in_memory {i : Instr} {s t : State} (h : Effect i s t) (hneed : needsNext i s) :
    s.pc.toNat + (i.operands.length + 1) ≤ 255 := by
  rcases hneed with ⟨hbit, hhlt⟩ | ⟨a, rfl⟩ | hjump
  · rw [setsPcBit_opcode] at hbit
    obtain ⟨hpc, -⟩ := h.advances hbit hhlt
    exact hpc
  · obtain ⟨r, -, hpc, -⟩ := h
    exact hpc
  · rcases hjump with ⟨a, rfl, hE⟩ | ⟨a, rfl, hE⟩ | ⟨a, rfl, hG⟩ | ⟨a, rfl, hL⟩ | ⟨a, rfl, hL, hE⟩ | ⟨a, rfl, hG, hE⟩
    · exact EffectJ.next_in_memory h hE
    · exact EffectJ.next_in_memory h (congrArg Bool.not hE)
    · exact EffectJ.next_in_memory h hG
    · exact EffectJ.next_in_memory h hL
    · exact EffectJ.next_in_memory h (Bool.or_eq_false_iff.mpr ⟨hL, hE⟩)
    · exact EffectJ.next_in_memory h (Bool.or_eq_false_iff.mpr ⟨hG, hE⟩)

/-! ### Every instruction answers a next state -/

/-- The result is a next state: no fault and no refusal of the model's own (log 12). -/
def Answers (r : Result) : Prop := ∃ t, r = .next t

theorem checkOperands_answers {n : Nat} {s : State} {k : Result} (hk : Answers k) : Answers (checkOperands n s k) := by
  rcases Nat.lt_or_ge 255 (s.pc.toNat + n) with h | h
  · exact ⟨_, checkOperands_fail h⟩
  · rwa [checkOperands_pass h]

theorem checkReg_answers {o : Byte} {s : State} {k : RegIndex → Result} (hk : ∀ i, Answers (k i)) :
    Answers (checkReg o s k) := by
  rcases Nat.lt_or_ge 7 o.toNat with h | h
  · exact ⟨_, checkReg_fail h⟩
  · rw [regByte_of_lt (Nat.lt_succ_of_le h), checkReg_pass]
    exact hk _

theorem checkDivisor_answers {d : Byte} {s : State} {k : Result} (hk : Answers k) : Answers (checkDivisor d s k) := by
  unfold checkDivisor
  split
  · exact ⟨_, rfl⟩
  · exact hk

theorem checkNext_answers {n : Nat} {s : State} {k : Byte → Result} (hk : ∀ p, Answers (k p)) :
    Answers (checkNext n s k) := by
  rcases Nat.lt_or_ge 255 (s.pc.toNat + 1 + n) with h | h
  · exact ⟨_, checkNext_fail h⟩
  · rw [checkNext_pass h]
    exact hk _

theorem advance_answers {n : Nat} {s : State} {effect : State → State} : Answers (advance n s effect) :=
  checkNext_answers fun _ => ⟨_, rfl⟩

theorem formR_answers {a : Byte} {s : State} {k : RegIndex → Result} (hk : ∀ i, Answers (k i)) : Answers (formR a s k) :=
  checkOperands_answers (checkReg_answers hk)

theorem formRI_answers {a : Byte} {s : State} {k : RegIndex → Result} (hk : ∀ i, Answers (k i)) :
    Answers (formRI a s k) :=
  checkOperands_answers (checkReg_answers hk)

theorem formRR_answers {a b : Byte} {s : State} {k : RegIndex → RegIndex → Result} (hk : ∀ i j, Answers (k i j)) :
    Answers (formRR a b s k) :=
  checkOperands_answers (checkReg_answers fun i => checkReg_answers (hk i))

theorem jumpIf_answers {cond : Byte → Bool} {a : Byte} {s : State} : Answers (jumpIf cond a s) := by
  refine formR_answers fun i => ?_
  split
  · exact ⟨_, rfl⟩
  · exact checkNext_answers fun _ => ⟨_, rfl⟩

theorem exec_answers (i : Instr) (s : State) : Answers (exec i s) := by
  cases i with
  | hlt | ret | iret => exact ⟨_, rfl⟩
  | call a => exact formR_answers fun _ => checkNext_answers fun _ => ⟨_, rfl⟩
  | jmp a => exact formR_answers fun _ => ⟨_, rfl⟩
  | jeq a | jne a | jgt a | jlt a | jle a | jge a => exact jumpIf_answers
  | push a | pop a | prn a | pra a | inc a | dec a | not a => exact formR_answers fun _ => advance_answers
  | ldi a imm | addi a imm => exact formRI_answers fun _ => advance_answers
  | div a b | mod a b => exact formRR_answers fun _ _ => checkDivisor_answers advance_answers
  | ld a b | st a b | add a b | sub a b | mul a b | cmp a b | and a b | or a b | xor a b | shl a b | shr a b =>
    exact formRR_answers fun _ _ => advance_answers

theorem fetchExecute_answers (s : State) : Answers (fetchExecute s) := by
  rcases fetchExecute_cases s with ⟨ir, -, h⟩ | ⟨-, h⟩ | ⟨i, rest, -, h⟩
  · exact ⟨_, h⟩
  · exact ⟨_, h⟩
  · rw [h]
    exact exec_answers i s

theorem step_answers (s : State) : Answers (step s) := by
  by_cases hrun : s.run = .running
  · cases hl : s.poll.serviceable with
    | some l => exact ⟨_, step_entry hrun hl⟩
    | none =>
      rw [step_fetch hrun hl]
      exact fetchExecute_answers s.poll
  · exact ⟨s, step_stopped hrun⟩

/-! ### Which fault an instruction raises (40_execution_cycle.md R74) -/

theorem InstrFault.eq_registerIndex {i : Instr} {s : State} {c : Fault} (h : InstrFault i s c)
    (hbad : i.wellFormed = false) (hfetch : s.pc.toNat + operandCount i.opcode ≤ 255) :
    c = .outOfRange .registerIndex := by
  match c, h with
  | .arithmeticFault, ⟨hwf, _⟩ => simp [hwf] at hbad
  | .outOfRange .operandFetch, hover => exact absurd hfetch (Nat.not_le.mpr hover)
  | .outOfRange .registerIndex, _ => rfl
  | .outOfRange .nextPc, ⟨hwf, _⟩ => simp [hwf] at hbad

theorem InstrFault.eq_nextPc {i : Instr} {s : State} {c : Fault} (h : InstrFault i s c) (hwf : i.wellFormed = true)
    (hfetch : s.pc.toNat + operandCount i.opcode ≤ 255) (hdiv : ¬ dividesByZero i s) : c = .outOfRange .nextPc := by
  match c, h with
  | .arithmeticFault, ⟨_, hzero⟩ => exact absurd hzero hdiv
  | .outOfRange .operandFetch, hover => exact absurd hfetch (Nat.not_le.mpr hover)
  | .outOfRange .registerIndex, ⟨_, hbad⟩ => simp [hwf] at hbad
  | .outOfRange .nextPc, _ => rfl

/-- An instruction that cannot have its effect, and of whose checks only one can fail, raises that one's fault. -/
theorem exec_eq_fault {i : Instr} {s : State} {c : Fault} (hfault : ∀ c', InstrFault i s c' → c' = c)
    (heffect : ∀ t, ¬ Effect i s t) : exec i s = .next (s.fault c) := by
  obtain ⟨t, ht⟩ := exec_answers i s
  rcases exec_next ht with ⟨c', hc', rfl⟩ | he
  · rw [ht, hfault c' hc']
  · exact absurd he (heffect t)

end Sys2Proof.Machine
end

section
namespace Sys2Proof
open Sys2Proof.Machine

/-- Settles O49: a fault changes no register, and each kind of change writes the registers listed (`Change.reg`). -/
theorem registerFrame : Obligations.RegisterFrame := by
  unfold Obligations.RegisterFrame
  intro i s t r h hne
  rcases exec_change h with ⟨c, rfl⟩ | hchange
  · exact absurd (State.fault_reg s c r) hne
  · exact hchange.reg hne

/-- Settles O50: of the kinds of change only those of CMP and IRET write FL (`Change.fl`). -/
theorem flagFrame : Obligations.FlagFrame := by
  unfold Obligations.FlagFrame
  intro i s t h hcmp hiret
  rcases exec_change h with ⟨c, rfl⟩ | hchange
  · exact State.fault_fl s c
  · exact hchange.fl hcmp hiret

/-- Settles O51: of the kinds of change only those of ST, PUSH and CALL write memory (`Change.memRead`). -/
theorem nonStoringMemoryFrame : Obligations.NonStoringMemoryFrame := by
  unfold Obligations.NonStoringMemoryFrame
  intro i s t h hstore a
  rcases exec_change h with ⟨c, rfl⟩ | hchange
  · exact State.fault_memRead s c a
  · exact hchange.memRead hstore a

/-- Settles O52: the effect of ST is one write at the value of its first register, that of PUSH and CALL one push, which
writes at the lowered SP only (`State.push_memRead_other`). -/
theorem storingMemoryFrame : Obligations.StoringMemoryFrame := by
  unfold Obligations.StoringMemoryFrame
  refine ⟨fun s t i j a h ha => ?_, fun s t o a h ha => ?_, fun s t o a h ha => ?_⟩
  · rcases exec_next h with ⟨c, -, rfl⟩ | ⟨r, q, hr, -, -, rfl⟩
    · exact State.fault_memRead s c a
    · obtain rfl := regByte_inj.mp hr
      exact State.memRead_memWrite_other s _ ha
  · rcases exec_next h with ⟨c, -, rfl⟩ | ⟨r, -, -, rfl⟩
    · exact State.fault_memRead s c a
    · exact State.push_memRead_other s _ ha
  · rcases exec_next h with ⟨c, -, rfl⟩ | ⟨r, -, -, rfl⟩
    · exact State.fault_memRead s c a
    · exact State.push_memRead_other s _ ha

/-- Settles O53: a fault is the run status written and nothing else; the kinds of change write `ie`, the output and the run
status only where listed, and never the timer or the samples. -/
theorem controlStateFrame : Obligations.ControlStateFrame := by
  unfold Obligations.ControlStateFrame
  intro i s t h
  rcases exec_change h with ⟨c, rfl⟩ | hchange
  · exact ⟨fun _ => rfl, fun _ _ => rfl, fun _ => .inr ⟨c, rfl⟩, rfl, rfl, rfl⟩
  · refine ⟨hchange.ie, fun hprn hpra => ?_, fun hhlt => .inl (hchange.run hhlt), hchange.samples⟩
    rcases hchange.out with hout | ⟨e, -, ⟨a, ha⟩ | ⟨a, ha⟩⟩
    · exact hout
    · exact absurd ha (hprn a)
    · exact absurd ha (hpra a)

/-- Settles O54: a machine that runs on has not faulted, so the pc is that of the effect (`Effect.advances`), which no
successor address above 255 lets wrap. -/
theorem pcAdvance : Obligations.PcAdvance := by
  unfold Obligations.PcAdvance
  constructor
  · intro i s t _ h hruns hbit hhlt
    rcases exec_next h with ⟨c, -, rfl⟩ | heffect
    · cases hruns
    · rw [setsPcBit_opcode] at hbit
      obtain ⟨hpc, ht⟩ := heffect.advances hbit hhlt
      rw [ht, operandCount_opcode, BitVec.toNat_add, BitVec.toNat_ofNat]
      omega
  · intro s t h
    obtain rfl := Result.next_inj.mp h
    rfl

/-- Settles O27: an instruction that is not well-formed cannot have its effect (`Effect.wellFormed`), and with its operand
bytes in memory no other check than the register index fails (`InstrFault.eq_registerIndex`). -/
theorem registerIndexAboveSevenFaults : Obligations.RegisterIndexAboveSevenFaults := by
  unfold Obligations.RegisterIndexAboveSevenFaults
  intro i s hbad hfetch
  refine exec_eq_fault (fun c hc => hc.eq_registerIndex hbad hfetch) fun t heffect => ?_
  rw [heffect.wellFormed] at hbad
  cases hbad

/-- Settles O28: an instruction that needs its successor address cannot have its effect without it
(`Effect.next_in_memory`), and no other check than that of the successor address fails (`InstrFault.eq_nextPc`). -/
theorem successorAboveMemoryFaults : Obligations.SuccessorAboveMemoryFaults := by
  unfold Obligations.SuccessorAboveMemoryFaults
  intro i s hwf hlast hneed hdiv
  refine exec_eq_fault (fun c hc => hc.eq_nextPc hwf hlast.le hdiv) fun t heffect => ?_
  have hnext := heffect.next_in_memory hneed
  rw [operandCount_opcode] at hlast
  omega

/-- Settles O36: the stopped machine, the interrupt entry, the failed fetch and every instruction (`exec_answers`) answer
next states. -/
theorem everyStepAnswersANextState : Obligations.EveryStepAnswersANextState := by
  unfold Obligations.EveryStepAnswersANextState
  exact step_answers

end Sys2Proof
end

section
namespace Sys2Proof.Machine

/-! ### The bytes fetched at the pc (40_execution_cycle.md R73, R75) -/

/-- The opcode byte is fetched, and of the two bytes after it those that memory has. -/
theorem State.fetchBytes_eq (s : State) :
    ∃ tail, s.fetchBytes = s.memRead s.pc :: tail ∧ tail.length = min 2 (255 - s.pc.toNat) := by
  refine ⟨_, rfl, ?_⟩
  split_ifs with h1 h2
  · simp only [List.length_cons, List.length_nil]; omega
  · simp only [List.length_cons, List.length_nil]; omega
  · simp only [List.length_nil]; omega

/-- The `k`-th byte fetched is read at `k` addresses above the pc. -/
theorem State.fetchBytes_getElem (s : State) (k : Nat) (hk : k < s.fetchBytes.length) :
    s.fetchBytes[k] = s.memRead (s.pc + BitVec.ofNat 8 k) := by
  unfold State.fetchBytes at hk ⊢
  split_ifs at hk ⊢ with h1 h2
  · match k, hk with
    | 0, _ => simp
    | 1, _ => rfl
    | 2, _ => rfl
  · match k, hk with
    | 0, _ => simp
    | 1, _ => rfl
  · match k, hk with
    | 0, _ => simp

theorem operandCount_le_two {ir : Byte} (h : isOpcode ir = true) : operandCount ir ≤ 2 := by
  rcases lookupOpcode_cases ir with ⟨hno, -⟩ | ⟨-, f, -, -, harity⟩
  · rw [hno] at h
    cases h
  · rw [← harity]
    cases f with
    | z | r | rr | ri => simp [Form.arity]

theorem decode_fetchBytes_eq_unknownOpcode {s : State} {o : Byte} :
    decode s.fetchBytes = .error (.unknownOpcode o) ↔ s.memRead s.pc = o ∧ isOpcode (s.memRead s.pc) = false :=
  decode_eq_unknownOpcode

/-- The bytes end before the last operand exactly when that operand's address is above 255. -/
theorem decode_fetchBytes_eq_truncated {s : State} :
    decode s.fetchBytes = .error .truncated ↔
      isOpcode (s.memRead s.pc) = true ∧ 255 < s.pc.toNat + operandCount (s.memRead s.pc) := by
  obtain ⟨tail, hbytes, hlength⟩ := s.fetchBytes_eq
  rw [hbytes, decode_eq_truncated, hlength]
  refine and_congr_right fun hop => ?_
  have htwo := operandCount_le_two hop
  have hpc := s.pc.isLt
  omega

theorem State.standsOn.memRead_pc {s : State} {i : Instr} (h : s.standsOn i) : s.memRead s.pc = i.opcode := by
  obtain ⟨rest, hrest⟩ := h
  exact (List.cons.inj (decode_eq_ok hrest)).1

theorem fetchExecute_unknownOpcode {s : State} (h : isOpcode (s.memRead s.pc) = false) :
    fetchExecute s = .next (s.fault .decodeFailure) := by
  rw [fetchExecute, decode_fetchBytes_eq_unknownOpcode.mpr ⟨rfl, h⟩]
  rfl

theorem fetchExecute_truncated {s : State} (hop : isOpcode (s.memRead s.pc) = true)
    (hover : 255 < s.pc.toNat + operandCount (s.memRead s.pc)) :
    fetchExecute s = .next (s.fault (.outOfRange .operandFetch)) := by
  rw [fetchExecute, decode_fetchBytes_eq_truncated.mpr ⟨hop, hover⟩]
  rfl

/-- An instruction whose bytes stand at the pc is what the fetch decodes. -/
theorem State.standsOn_of_memRead {s : State} {i : Instr} (hfit : s.pc.toNat + (encode i).length ≤ 256)
    (hbytes : ∀ k (h : k < (encode i).length), s.memRead (s.pc + BitVec.ofNat 8 k) = (encode i)[k]) : s.standsOn i := by
  have hcount := operandCount_le_two (isOpcode_opcode i)
  rw [operandCount_opcode] at hcount
  have hlen : (encode i).length = i.operands.length + 1 := rfl
  have hle : (encode i).length ≤ s.fetchBytes.length := by
    obtain ⟨tail, htail, hlength⟩ := s.fetchBytes_eq
    rw [htail, List.length_cons, hlength]
    omega
  have htake : s.fetchBytes.take (encode i).length = encode i := by
    refine List.ext_getElem (by simpa using hle) fun k hk hki => ?_
    rw [List.getElem_take, State.fetchBytes_getElem, hbytes k hki]
  refine ⟨s.fetchBytes.drop (encode i).length, ?_⟩
  rw [← decode_encode i, ← congrArg (· ++ _) htake, List.take_append_drop]

/-! ### What a fetch leads to -/

/-- The checks of an instruction that stands at the pc are the conditions that explain its fault (60_exceptions.md R164). -/
theorem InstrFault.applies {i : Instr} {s : State} {c : Fault} (hstands : s.standsOn i) (h : InstrFault i s c) :
    c.applies s := by
  match c, h with
  | .arithmeticFault, h => exact ⟨i, hstands, h⟩
  | .outOfRange .operandFetch, hover =>
    rw [Fault.applies, hstands.memRead_pc]
    exact ⟨isOpcode_opcode i, hover⟩
  | .outOfRange .registerIndex, ⟨_, hbad⟩ => exact ⟨i, hstands, hbad⟩
  | .outOfRange .nextPc, h => exact ⟨i, hstands, h⟩

/-- Steps 3 to 5 end in a fault that applies, or in the effect of the instruction at the pc. -/
theorem fetchExecute_next {s t : State} (h : fetchExecute s = .next t) :
    (∃ c, c.applies s ∧ s.fault c = t) ∨ ∃ i, s.standsOn i ∧ Effect i s t := by
  rcases fetchExecute_cases s with ⟨ir, hdecode, hraise⟩ | ⟨hdecode, hraise⟩ | ⟨i, rest, hdecode, hexec⟩
  · obtain ⟨-, hno⟩ := decode_fetchBytes_eq_unknownOpcode.mp hdecode
    exact .inl ⟨.decodeFailure, hno, Result.next_inj.mp (hraise.symm.trans h)⟩
  · exact .inl ⟨.outOfRange .operandFetch, decode_fetchBytes_eq_truncated.mp hdecode,
      Result.next_inj.mp (hraise.symm.trans h)⟩
  · have hstands : s.standsOn i := ⟨rest, hdecode⟩
    rcases exec_next (hexec.symm.trans h) with ⟨c, hc, ht⟩ | heffect
    · exact .inl ⟨c, hc.applies hstands, ht⟩
    · exact .inr ⟨i, hstands, heffect⟩

/-! ### The invariant -/

theorem State.stopExplained_running {s : State} (h : s.run = .running) : s.stopExplained := by
  simp [State.stopExplained, h]

theorem State.stopExplained_halted {s : State} (h : s.run = .halted) (hbyte : s.memRead s.pc = opcHlt) :
    s.stopExplained := by
  simp [State.stopExplained, h, hbyte]

/-- A fault explains the stop it leads to: it changes nothing that its condition looks at. -/
theorem State.stopExplained_fault {s : State} {c : Fault} (h : c.applies s) : (s.fault c).stopExplained := by
  refine ⟨rfl, rfl, ?_⟩
  match c, h with
  | .decodeFailure, h => exact h
  | .arithmeticFault, h => exact h
  | .outOfRange .operandFetch, h => exact h
  | .outOfRange .registerIndex, h => exact h
  | .outOfRange .nextPc, h => exact h

/-- An effect stops a running machine only on a HLT. -/
theorem Effect.stopExplained {i : Instr} {s t : State} (h : Effect i s t) (hstands : s.standsOn i)
    (hrun : s.run = .running) : t.stopExplained := by
  by_cases hhlt : i = .hlt
  · subst hhlt
    have hbyte : s.memRead s.pc = opcHlt := hstands.memRead_pc
    obtain rfl : s.setRun .halted = t := h
    exact State.stopExplained_halted (State.setRun_run s .halted) hbyte
  · exact State.stopExplained_running ((h.change.run hhlt).trans hrun)

theorem fetchExecute_inv {s t : State} (hmem : Memory.wf s.mem = true) (hrun : s.run = .running)
    (h : fetchExecute s = .next t) : t.inv := by
  rcases fetchExecute_next h with ⟨c, hc, rfl⟩ | ⟨i, hstands, heffect⟩
  · exact ⟨hmem, State.stopExplained_fault hc⟩
  · exact ⟨heffect.change.wf hmem, heffect.stopExplained hstands hrun⟩

/-! ### What a step does to samples and output -/

/-- A step of a running machine takes one sample. -/
theorem step_takes_sample {s t : State} (hrun : s.run = .running) (h : step s = .next t) :
    t.inputs = s.inputs.tail ∧ t.samples = s.samples + 1 := by
  rw [← State.poll_inputs, ← State.poll_samples]
  rcases step_cases h with ⟨hstopped, -⟩ | ⟨-, l, -, rfl⟩ | ⟨-, -, hfetch⟩
  · exact absurd hrun hstopped
  · exact ⟨State.interruptEntry_inputs s.poll l, State.interruptEntry_samples s.poll l⟩
  · rcases fetchExecute_next hfetch with ⟨c, -, rfl⟩ | ⟨i, -, heffect⟩
    · exact ⟨State.fault_inputs s.poll c, State.fault_samples s.poll c⟩
    · obtain ⟨-, hinputs, hsamples⟩ := heffect.change.samples
      exact ⟨hinputs, hsamples⟩

theorem State.nextInput_eq_getElem (s : State) {l : List CycleInput} {n : Nat} (h : s.inputs = l.drop n) :
    s.nextInput = if hn : n < l.length then l[n]
      else { key := Config.freeKey s.samples, now := Config.freeNow s.samples } := by
  by_cases hn : n < l.length
  · rw [dif_pos hn]
    exact State.nextInput_listed (h.trans (List.drop_eq_getElem_cons hn))
  · rw [dif_neg hn]
    exact State.nextInput_free (h.trans (List.drop_eq_nil_of_le (Nat.le_of_not_lt hn)))

end Sys2Proof.Machine
end

section
namespace Sys2Proof
open Sys2Proof.Machine

/-- Settles O55: a stopped machine stands still; an interrupt entry keeps it running and writes memory by pushes; a fetch
ends in a fault that applies or in an effect (`fetchExecute_inv`). -/
theorem stepKeepsTheInvariant : Obligations.StepKeepsTheInvariant := by
  unfold Obligations.StepKeepsTheInvariant
  rintro s t ⟨hmem, hstop⟩ h
  rcases step_cases h with ⟨-, rfl⟩ | ⟨hrun, l, -, rfl⟩ | ⟨hrun, -, hfetch⟩
  · exact ⟨hmem, hstop⟩
  · refine ⟨State.interruptEntry_wf l (State.poll_wf hmem), State.stopExplained_running ?_⟩
    rw [State.interruptEntry_run, State.poll_run, hrun]
  · exact fetchExecute_inv (State.poll_wf hmem) ((State.poll_run s).trans hrun) hfetch

/-- Settles O56: the reset memory is canonical (`State.reset_wf`) and the reset machine is running. -/
theorem resetHasTheInvariant : Obligations.ResetHasTheInvariant := by
  unfold Obligations.ResetHasTheInvariant
  intro l n
  exact ⟨State.reset_wf, State.stopExplained_running rfl⟩

/-- Settles O29: such an opcode's bytes end with memory (`fetchExecute_truncated`), and the poll leaves the pc. -/
theorem operandFetchAboveMemoryFaults : Obligations.OperandFetchAboveMemoryFaults := by
  unfold Obligations.OperandFetchAboveMemoryFaults
  intro s hrun hnone hop hover
  rw [← State.poll_pc] at hop hover ⊢
  exact (step_fetch hrun hnone).trans (fetchExecute_truncated hop hover)

/-- Settles O30: a byte that the map does not hold is no opcode (`isOpcode_iff_mem_opcodeMap`), so the fetch ends in the
decode failure (`fetchExecute_unknownOpcode`). -/
theorem undefinedOpcodeFaults : Obligations.UndefinedOpcodeFaults := by
  unfold Obligations.UndefinedOpcodeFaults
  intro s hrun hnone hbyte
  have hno : isOpcode (s.poll.memRead s.pc) = false :=
    Bool.eq_false_iff.mpr fun hop => hbyte (isOpcode_iff_mem_opcodeMap.mp hop)
  rw [← State.poll_pc] at hno ⊢
  exact (step_fetch hrun hnone).trans (fetchExecute_unknownOpcode hno)

/-- Settles O31: of what a step of a running machine can do, only a fault of the fetch leaves it FAULTED, and that changes
the run status alone (`State.fault`). -/
theorem faultsArePrecise : Obligations.FaultsArePrecise := by
  unfold Obligations.FaultsArePrecise
  intro s t c p o hrun h hfaulted
  have hpoll : s.poll.run = .running := (State.poll_run s).trans hrun
  rcases step_cases h with ⟨hstopped, -⟩ | ⟨-, l, -, rfl⟩ | ⟨-, -, hfetch⟩
  · exact absurd hrun hstopped
  · rw [State.interruptEntry_run, hpoll] at hfaulted
    cases hfaulted
  · rcases fetchExecute_next hfetch with ⟨c', -, rfl⟩ | ⟨i, -, heffect⟩
    · rw [State.fault_run, State.poll_pc] at hfaulted
      injection hfaulted with hc hp ho
      subst hc hp ho
      exact ⟨by rw [State.fault, State.poll_pc], rfl, rfl⟩
    · by_cases hhlt : i = .hlt
      · subst hhlt
        obtain rfl := heffect
        cases hfaulted
      · rw [heffect.change.run hhlt, hpoll] at hfaulted
        cases hfaulted

/-- Settles O32: with nothing to service the step fetches (`step_fetch`), and the fetch goes on with what it decodes. -/
theorem stepRunsTheDecodedInstruction : Obligations.StepRunsTheDecodedInstruction := by
  unfold Obligations.StepRunsTheDecodedInstruction
  intro s i rest hrun hnone hdecode
  exact (step_fetch hrun hnone).trans (fetchExecute_of_decode hdecode)

/-- Settles O33: the bytes fetched begin with the instruction's (`State.standsOn_of_memRead`). -/
theorem stepRunsTheEncodedInstruction : Obligations.StepRunsTheEncodedInstruction := by
  unfold Obligations.StepRunsTheEncodedInstruction
  intro s i hrun hnone hfit hbytes
  rw [← State.poll_pc] at hfit hbytes
  obtain ⟨rest, hdecode⟩ := State.standsOn_of_memRead hfit hbytes
  exact (step_fetch hrun hnone).trans (fetchExecute_of_decode hdecode)

/-- Settles O39, by induction on the length of the run: each step takes one sample (`step_takes_sample`). -/
theorem samplesNeverEnd : Obligations.SamplesNeverEnd := by
  unfold Obligations.SamplesNeverEnd
  intro n states hruns
  have htaken : (states n).inputs = (states 0).inputs.drop n ∧ (states n).samples = (states 0).samples + n := by
    induction n with
    | zero => exact ⟨rfl, rfl⟩
    | succ n ih =>
      obtain ⟨hinputs, hsamples⟩ := ih fun k hk => hruns k (Nat.lt_succ_of_lt hk)
      obtain ⟨hrun, hstep⟩ := hruns n (Nat.lt_succ_self n)
      obtain ⟨hinputs', hsamples'⟩ := step_takes_sample hrun hstep
      exact ⟨by rw [hinputs', hinputs, List.tail_drop], by rw [hsamples', hsamples, Nat.add_assoc]⟩
  obtain ⟨hinputs, hsamples⟩ := htaken
  refine ⟨hinputs, hsamples, ?_⟩
  rw [← hsamples]
  exact State.nextInput_eq_getElem _ hinputs

/-- Settles O44: with `ie` clear nothing is serviceable, so the step fetches; and the instruction fetched leaves `ie` clear
unless it is IRET (`Change.ie`), whose byte then stands at the pc. -/
theorem interruptsDoNotNest : Obligations.InterruptsDoNotNest := by
  unfold Obligations.InterruptsDoNotNest
  intro s hrun hie
  have hpoll : s.poll.ie = false := (State.poll_ie s).trans hie
  have hfetch : step s = fetchExecute s.poll := step_fetch hrun (State.serviceable_eq_none.mpr (.inl hpoll))
  refine ⟨hfetch, fun t ht hset => ?_⟩
  rcases fetchExecute_next (hfetch.symm.trans ht) with ⟨c, -, rfl⟩ | ⟨i, hstands, heffect⟩
  · rw [State.fault_ie, hpoll] at hset
    cases hset
  · by_cases hiret : i = .iret
    · subst hiret
      rw [← State.poll_pc, hstands.memRead_pc, Laws.opcode_iret]
    · rw [heffect.change.ie hiret, hpoll] at hset
      cases hset

/-- Settles O58: only the effect of the instruction fetched emits (`Change.out`), and that instruction's opcode stands at
the pc. -/
theorem outputIsAppendOnly : Obligations.OutputIsAppendOnly := by
  unfold Obligations.OutputIsAppendOnly
  intro s t h
  rcases step_cases h with ⟨-, rfl⟩ | ⟨-, l, -, rfl⟩ | ⟨-, -, hfetch⟩
  · exact .inl rfl
  · exact .inl ((State.interruptEntry_out s.poll l).trans (State.poll_out s))
  · rcases fetchExecute_next hfetch with ⟨c, -, rfl⟩ | ⟨i, hstands, heffect⟩
    · exact .inl ((State.fault_out s.poll c).trans (State.poll_out s))
    · have hbyte := hstands.memRead_pc
      rw [State.poll_pc] at hbyte
      rcases heffect.change.out with hout | ⟨e, hout, ⟨a, rfl⟩ | ⟨a, rfl⟩⟩
      · exact .inl (hout.trans (State.poll_out s))
      · exact .inr ⟨e, by rw [hout, State.poll_out], .inl hbyte⟩
      · exact .inr ⟨e, by rw [hout, State.poll_out], .inr hbyte⟩

/-- Settles O6: after reset no line is enabled (IM is 0), whatever the poll raises, and the byte at address 0 is the 0x00
of empty memory, which the poll does not write there and which is no opcode. -/
theorem emptyMemoryStopsAtOnce : Obligations.EmptyMemoryStopsAtOnce := by
  unfold Obligations.EmptyMemoryStopsAtOnce
  intro l n
  have hIM : ((State.reset.setInputs l).setSamples n).poll.reg IM = 0x00#8 := by
    rw [State.poll_reg]; rfl
  have hnone : ((State.reset.setInputs l).setSamples n).poll.serviceable = none :=
    State.serviceable_eq_none.mpr (.inr (by rw [State.pending, hIM, BitVec.zero_and]))
  have hpc : ((State.reset.setInputs l).setSamples n).poll.pc = 0x00#8 := State.poll_pc _
  have hbyte : ((State.reset.setInputs l).setSamples n).poll.memRead 0x00#8 = 0x00#8 := by
    rw [State.poll_memRead_eq_getD, if_neg (by decide)]; rfl
  have hno : isOpcode (((State.reset.setInputs l).setSamples n).poll.memRead
      ((State.reset.setInputs l).setSamples n).poll.pc) = false := by
    rw [hpc, hbyte]; decide
  refine ⟨_, (step_fetch rfl hnone).trans (fetchExecute_unknownOpcode hno), ?_, hpc⟩
  rw [State.fault_run, hpc, hbyte]

end Sys2Proof
end

section
namespace Sys2Proof.Machine

/-! ### The operand forms where every check passes (40_execution_cycle.md R74 to R80) -/

section
variable {s : State} {i j : RegIndex}

theorem formR_advance_pass {effect : RegIndex → State → State} (hpc : s.pc.toNat + 2 ≤ 255) :
    formR (regByte i) s (fun i => advance 1 s (effect i)) = .next ((effect i s).setPc (s.pc + 2)) := by
  have hoperand : s.pc.toNat + 1 ≤ 255 := by omega
  have hnext : s.pc.toNat + 1 + 1 ≤ 255 := hpc
  exact (formR_pass hoperand).trans (advance_pass hnext)

theorem formRI_advance_pass {effect : RegIndex → State → State} (hpc : s.pc.toNat + 3 ≤ 255) :
    formRI (regByte i) s (fun i => advance 2 s (effect i)) = .next ((effect i s).setPc (s.pc + 3)) := by
  have hoperands : s.pc.toNat + 2 ≤ 255 := by omega
  have hnext : s.pc.toNat + 1 + 2 ≤ 255 := hpc
  exact (formRI_pass hoperands).trans (advance_pass hnext)

theorem formRR_advance_pass {effect : RegIndex → RegIndex → State → State} (hpc : s.pc.toNat + 3 ≤ 255) :
    formRR (regByte i) (regByte j) s (fun i j => advance 2 s (effect i j)) =
      .next ((effect i j s).setPc (s.pc + 3)) := by
  have hoperands : s.pc.toNat + 2 ≤ 255 := by omega
  have hnext : s.pc.toNat + 1 + 2 ≤ 255 := hpc
  exact (formRR_pass hoperands).trans (advance_pass hnext)

theorem aluDivRR_pass {f : Byte → Byte → Byte} (hpc : s.pc.toNat + 3 ≤ 255) (hd : s.reg j ≠ 0#8) :
    aluDivRR f (regByte i) (regByte j) s = .next ((s.setReg i (f (s.reg i) (s.reg j))).setPc (s.pc + 3)) := by
  have hoperands : s.pc.toNat + 2 ≤ 255 := by omega
  have hnext : s.pc.toNat + 1 + 2 ≤ 255 := hpc
  exact (formRR_pass hoperands).trans ((if_neg hd).trans (advance_pass hnext))

theorem aluDivRR_zero {f : Byte → Byte → Byte} (hpc : s.pc.toNat + 2 ≤ 255) (hd : s.reg j = 0#8) :
    aluDivRR f (regByte i) (regByte j) s = .next (s.fault .arithmeticFault) :=
  (formRR_pass hpc).trans (if_pos hd)

theorem jumpIf_taken {cond : Byte → Bool} (hcond : cond s.fl = true) (hpc : s.pc.toNat + 1 ≤ 255) :
    jumpIf cond (regByte i) s = .next (s.setPc (s.reg i)) :=
  (formR_pass hpc).trans (if_pos hcond)

theorem jumpIf_not_taken {cond : Byte → Bool} (hcond : cond s.fl = false) (hpc : s.pc.toNat + 2 ≤ 255) :
    jumpIf cond (regByte i) s = .next (s.setPc (s.pc + 2)) := by
  have hoperand : s.pc.toNat + 1 ≤ 255 := by omega
  have hnext : s.pc.toNat + 1 + 1 ≤ 255 := hpc
  have hnot : ¬ cond s.fl = true := by simp [hcond]
  exact (formR_pass hoperand).trans ((if_neg hnot).trans (checkNext_pass hnext))

/-- With the successor address in memory a conditional jump goes one of its two ways. -/
theorem jumpIf_pass {cond : Byte → Bool} {rel : Prop} [Decidable rel] (hcond : cond s.fl = decide rel)
    (hpc : s.pc.toNat + 2 ≤ 255) :
    jumpIf cond (regByte i) s = .next (s.setPc (if rel then s.reg i else s.pc + 2)) := by
  by_cases h : rel
  · rw [if_pos h]
    exact jumpIf_taken (hcond.trans (decide_eq_true h)) (by omega)
  · rw [if_neg h]
    exact jumpIf_not_taken (hcond.trans (decide_eq_false h)) hpc

end

/-! ### The ALU's computations (41_alu.md R100 to R116) -/

theorem ofNat_mod_256 (n : Nat) : BitVec.ofNat 8 (n % 256) = BitVec.ofNat 8 n :=
  BitVec.eq_of_toNat_eq (by simp)

theorem aluSub_eq_ofInt (x y : Byte) : aluSub x y = BitVec.ofInt 8 ((x.toNat : Int) - y.toNat) := by
  apply BitVec.eq_of_toNat_eq
  have hx := x.isLt
  have hy := y.isLt
  rw [aluSub, BitVec.toNat_ofNat, BitVec.toNat_ofInt]
  omega

theorem aluInc_eq (x : Byte) : aluInc x = if x = 0xFF#8 then 0x00#8 else BitVec.ofNat 8 (x.toNat + 1) := by
  split
  · subst x; rfl
  · rfl

theorem aluDec_eq (x : Byte) : aluDec x = if x = 0x00#8 then 0xFF#8 else BitVec.ofNat 8 (x.toNat - 1) := by
  split
  · subst x; rfl
  · rename_i hx
    have hpos : x.toNat ≠ 0 := fun h => hx (BitVec.eq_of_toNat_eq h)
    apply BitVec.eq_of_toNat_eq
    rw [aluDec, BitVec.toNat_ofNat, BitVec.toNat_ofNat]
    omega

theorem aluNot_eq_xor (x : Byte) : aluNot x = x ^^^ 0xFF#8 := by
  have hones : (0xFF#8 : Byte) = BitVec.allOnes 8 := rfl
  rw [hones, BitVec.xor_allOnes]
  apply BitVec.eq_of_toNat_eq
  rw [aluNot, BitVec.toNat_ofNat, BitVec.toNat_not]
  omega

theorem aluShl_eq (x y : Byte) : aluShl x y = BitVec.ofNat 8 (x.toNat * 2 ^ y.toNat % 256) := by
  rw [ofNat_mod_256, aluShl, Nat.shiftLeft_eq]

theorem aluShr_eq (x y : Byte) : aluShr x y = BitVec.ofNat 8 (x.toNat / 2 ^ y.toNat) := by
  rw [aluShr, Nat.shiftRight_eq_div_pow]

theorem aluShl_of_eight_le (x : Byte) {y : Byte} (hy : 8 ≤ y.toNat) : aluShl x y = 0x00#8 := by
  have hdvd : 256 ∣ x.toNat * 2 ^ y.toNat := Dvd.dvd.mul_left (pow_dvd_pow 2 hy) _
  rw [aluShl_eq, Nat.mod_eq_zero_of_dvd hdvd]

theorem aluShr_of_eight_le (x : Byte) {y : Byte} (hy : 8 ≤ y.toNat) : aluShr x y = 0x00#8 := by
  have hlt : x.toNat < 2 ^ y.toNat := lt_of_lt_of_le x.isLt (Nat.pow_le_pow_right (by decide) hy)
  rw [aluShr_eq, Nat.div_eq_of_lt hlt]

theorem aluDiv_toNat (x y : Byte) : (aluDiv x y).toNat = x.toNat / y.toNat := by
  rw [aluDiv, BitVec.toNat_ofNat]
  exact Nat.mod_eq_of_lt (lt_of_le_of_lt (Nat.div_le_self _ _) x.isLt)

theorem aluMod_toNat (x y : Byte) : (aluMod x y).toNat = x.toNat % y.toNat := by
  rw [aluMod, BitVec.toNat_ofNat]
  exact Nat.mod_eq_of_lt (lt_of_le_of_lt (Nat.mod_le _ _) x.isLt)

/-! ### The flags (41_alu.md R109; 43_control_transfer.md R134) -/

theorem compareFlags_eq (x y : Byte) :
    compareFlags x y = if x.toNat = y.toNat then 0x01#8 else if y.toNat < x.toNat then 0x02#8 else 0x04#8 := by
  simp only [compareFlags, BitVec.toNat_inj]
  rfl

theorem compareFlags_cases (x y : Byte) :
    (x.toNat = y.toNat ∧ compareFlags x y = 0x01#8) ∨ (y.toNat < x.toNat ∧ compareFlags x y = 0x02#8) ∨
    (x.toNat < y.toNat ∧ compareFlags x y = 0x04#8) := by
  rw [compareFlags_eq]
  rcases Nat.lt_trichotomy x.toNat y.toNat with h | h | h
  · exact .inr (.inr ⟨h, by rw [if_neg h.ne, if_neg h.asymm]⟩)
  · exact .inl ⟨h, if_pos h⟩
  · exact .inr (.inl ⟨h, by rw [if_neg h.ne', if_pos h]⟩)

/-- A condition that holds of the three flags of a comparison as a relation of the values does, is that relation. -/
theorem cond_compareFlags {cond : Byte → Bool} {rel : Prop} [Decidable rel] (x y : Byte)
    (heq : x.toNat = y.toNat → cond 0x01#8 = decide rel) (hgt : y.toNat < x.toNat → cond 0x02#8 = decide rel)
    (hlt : x.toNat < y.toNat → cond 0x04#8 = decide rel) : cond (compareFlags x y) = decide rel := by
  rcases compareFlags_cases x y with ⟨h, hfl⟩ | ⟨h, hfl⟩ | ⟨h, hfl⟩
  · rw [hfl, heq h]
  · rw [hfl, hgt h]
  · rw [hfl, hlt h]

theorem condEQ_compareFlags (x y : Byte) : condEQ (compareFlags x y) = decide (x.toNat = y.toNat) :=
  cond_compareFlags x y (fun h => (decide_eq_true h).symm) (fun h => (decide_eq_false h.ne').symm)
    (fun h => (decide_eq_false h.ne).symm)

theorem condNE_compareFlags (x y : Byte) : condNE (compareFlags x y) = decide (x.toNat ≠ y.toNat) :=
  cond_compareFlags x y (fun h => (decide_eq_false (not_not_intro h)).symm) (fun h => (decide_eq_true h.ne').symm)
    (fun h => (decide_eq_true h.ne).symm)

theorem condGT_compareFlags (x y : Byte) : condGT (compareFlags x y) = decide (x.toNat > y.toNat) :=
  cond_compareFlags x y (fun h => (decide_eq_false h.not_gt).symm) (fun h => (decide_eq_true h).symm)
    (fun h => (decide_eq_false h.asymm).symm)

theorem condLT_compareFlags (x y : Byte) : condLT (compareFlags x y) = decide (x.toNat < y.toNat) :=
  cond_compareFlags x y (fun h => (decide_eq_false h.not_lt).symm) (fun h => (decide_eq_false h.asymm).symm)
    (fun h => (decide_eq_true h).symm)

theorem condLE_compareFlags (x y : Byte) : condLE (compareFlags x y) = decide (x.toNat ≤ y.toNat) :=
  cond_compareFlags x y (fun h => (decide_eq_true h.le).symm) (fun h => (decide_eq_false h.not_ge).symm)
    (fun h => (decide_eq_true h.le).symm)

theorem condGE_compareFlags (x y : Byte) : condGE (compareFlags x y) = decide (x.toNat ≥ y.toNat) :=
  cond_compareFlags x y (fun h => (decide_eq_true h.ge).symm) (fun h => (decide_eq_true h.le).symm)
    (fun h => (decide_eq_false h.not_ge).symm)

/-! ### The stack operations written out (42_data_movement.md R120, R121, R126) -/

theorem State.push_eq (s : State) (v : Byte) :
    s.push v = (s.setReg 7 (s.reg 7 - 1)).memWrite (s.reg 7 - 1) v := by
  have hsp : s.decSp.reg SP = s.reg 7 - 1 := State.setReg_reg_same s SP _
  rw [State.push, hsp]
  rfl

theorem State.setReg_setReg (s : State) (i : RegIndex) (v w : Byte) : (s.setReg i v).setReg i w = s.setReg i w := by
  simp [State.setReg]

/-- POP R7 leaves the byte popped, raised by one; any other register keeps it and SP is raised. -/
theorem State.popReg_eq (s : State) (i : RegIndex) :
    s.popReg i = if i = 7 then s.setReg 7 (s.memRead (s.reg 7) + 1)
      else (s.setReg i (s.memRead (s.reg 7))).setReg 7 (s.reg 7 + 1) := by
  split
  · subst i
    have hsp : (s.setReg 7 s.top).reg SP = s.top := State.setReg_reg_same s SP _
    rw [State.popReg, State.incSp, hsp]
    exact State.setReg_setReg s 7 _ _
  · rename_i hi
    have hsp : (s.setReg i s.top).reg SP = s.reg 7 := State.setReg_reg_other s _ (Ne.symm hi)
    rw [State.popReg, State.incSp, hsp]
    rfl

/-- Popping a register that was pushed gives the register and SP back. -/
theorem State.popReg_push_reg (s : State) {i : RegIndex} (hi : i ≠ SP) (r : RegIndex) :
    ((s.push (s.reg i)).popReg i).reg r = s.reg r := by
  rw [State.popReg_reg, State.push_top, State.push_reg, State.push_reg, if_neg (Ne.symm hi), if_pos rfl,
    BitVec.sub_add_cancel]
  by_cases hsp : r = SP
  · rw [if_pos hsp, hsp]
  · by_cases hri : r = i
    · rw [if_neg hsp, if_pos hri, hri]
    · rw [if_neg hsp, if_neg hri, if_neg hsp]

end Sys2Proof.Machine
end

section
namespace Sys2Proof
open Sys2Proof.Machine

/-- Settles O11: the forms complete (`formRR_advance_pass`, `formRI_advance_pass`), and the ALU reduces the exact result
modulo 256. -/
theorem arithmeticResults : Obligations.ArithmeticResults := by
  unfold Obligations.ArithmeticResults
  intro s i j imm hpc
  rw [ofNat_mod_256, ofNat_mod_256, ofNat_mod_256, ← aluSub_eq_ofInt]
  exact ⟨formRR_advance_pass hpc, formRR_advance_pass hpc, formRR_advance_pass hpc, formRI_advance_pass hpc⟩

/-- Settles O12: the form completes (`formR_advance_pass`), and the three computations are as written out. -/
theorem unaryResults : Obligations.UnaryResults := by
  unfold Obligations.UnaryResults
  intro s i hpc
  rw [← aluInc_eq, ← aluDec_eq, ← aluNot_eq_xor]
  exact ⟨formR_advance_pass hpc, formR_advance_pass hpc, formR_advance_pass hpc⟩

/-- Settles O13: the form completes (`formRR_advance_pass`), and the library reads the bits of the three operations. -/
theorem logicResults : Obligations.LogicResults := by
  unfold Obligations.LogicResults
  intro s i j hpc
  exact ⟨_, _, _, formRR_advance_pass hpc, formRR_advance_pass hpc, formRR_advance_pass hpc,
    fun k _ => ⟨BitVec.getLsbD_and, BitVec.getLsbD_or, BitVec.getLsbD_xor⟩⟩

/-- Settles O14: the form completes (`formRR_advance_pass`), shifts are products with and quotients by a power of two, and
a count of 8 or more leaves nothing of a byte. -/
theorem shiftResults : Obligations.ShiftResults := by
  unfold Obligations.ShiftResults
  intro s i j hpc
  have hshl : exec (.shl (regByte i) (regByte j)) s =
      .next ((s.setReg i (aluShl (s.reg i) (s.reg j))).setPc (s.pc + 3)) := formRR_advance_pass hpc
  have hshr : exec (.shr (regByte i) (regByte j)) s =
      .next ((s.setReg i (aluShr (s.reg i) (s.reg j))).setPc (s.pc + 3)) := formRR_advance_pass hpc
  rw [← aluShl_eq, ← aluShr_eq]
  refine ⟨hshl, hshr, fun hcount => ⟨?_, ?_⟩⟩
  · rw [hshl, aluShl_of_eight_le _ hcount]
  · rw [hshr, aluShr_of_eight_le _ hcount]

/-- Settles O15: the division completes (`aluDivRR_pass`) with quotient and remainder of the natural numbers. -/
theorem divisionResults : Obligations.DivisionResults := by
  unfold Obligations.DivisionResults
  intro s i j hpc hd
  refine ⟨_, _, aluDivRR_pass hpc hd, aluDivRR_pass hpc hd, ?_, ?_⟩
  · rw [aluDiv_toNat, aluMod_toNat, Nat.div_add_mod']
  · rw [aluMod_toNat]
    exact Nat.mod_lt _ (Nat.pos_of_ne_zero fun h => hd (BitVec.eq_of_toNat_eq h))

/-- Settles O16: the form completes (`formRR_advance_pass`) and the flags are as written out (`compareFlags_eq`). -/
theorem compareResults : Obligations.CompareResults := by
  unfold Obligations.CompareResults
  intro s i j hpc
  rw [← compareFlags_eq]
  exact formRR_advance_pass hpc

/-- Settles O17: the forms complete, and their effects are one write each. -/
theorem loadAndStoreResults : Obligations.LoadAndStoreResults := by
  unfold Obligations.LoadAndStoreResults
  intro s i j imm hpc
  exact ⟨formRI_advance_pass hpc, formRR_advance_pass hpc, formRR_advance_pass hpc⟩

/-- Settles O18: the form completes (`formR_advance_pass`); the register pushed is read after the decrement
(`State.decSp_reg`), the register popped is written before the increment (`State.popReg_eq`). -/
theorem pushAndPopResults : Obligations.PushAndPopResults := by
  unfold Obligations.PushAndPopResults
  intro s i hpc
  constructor
  · have hpush : exec (.push (regByte i)) s = .next ((s.push (s.decSp.reg i)).setPc (s.pc + 2)) := formR_advance_pass hpc
    rw [hpush, State.push_eq, State.decSp_reg]
    rfl
  · rw [← State.popReg_eq]
    exact formR_advance_pass hpc

/-- Settles O19: CALL completes (`exec_call_pass`) with a push and a jump to a register read after the decrement. -/
theorem callResult : Obligations.CallResult := by
  unfold Obligations.CallResult
  intro s i hpc
  rw [exec_call_pass hpc, State.push_eq, State.decSp_reg]
  rfl

/-- Settles O20: RET makes no check, and JMP only that of its operand (`formR_pass`). -/
theorem returnAndJumpResults : Obligations.ReturnAndJumpResults := by
  unfold Obligations.ReturnAndJumpResults
  intro s
  exact ⟨exec_ret s, fun i hpc => formR_pass hpc⟩

/-- Settles O21: the six jumps are one template with six conditions (`jumpIf_taken`, `jumpIf_not_taken`). -/
theorem conditionalJumpResults : Obligations.ConditionalJumpResults := by
  unfold Obligations.ConditionalJumpResults
  intro s i jump taken hlisted
  simp only [List.mem_cons, Prod.mk.injEq, List.not_mem_nil, or_false] at hlisted
  rcases hlisted with ⟨rfl, rfl⟩ | ⟨rfl, rfl⟩ | ⟨rfl, rfl⟩ | ⟨rfl, rfl⟩ | ⟨rfl, rfl⟩ | ⟨rfl, rfl⟩
  · exact ⟨jumpIf_taken (cond := condEQ), jumpIf_not_taken (cond := condEQ)⟩
  · exact ⟨jumpIf_taken (cond := condNE), jumpIf_not_taken (cond := condNE)⟩
  · exact ⟨jumpIf_taken (cond := condGT), jumpIf_not_taken (cond := condGT)⟩
  · exact ⟨jumpIf_taken (cond := condLT), jumpIf_not_taken (cond := condLT)⟩
  · exact ⟨jumpIf_taken (cond := condLE), jumpIf_not_taken (cond := condLE)⟩
  · exact ⟨jumpIf_taken (cond := condGE), jumpIf_not_taken (cond := condGE)⟩

/-- Settles O22: CMP completes with the flags of the comparison, and each jump's condition on these flags is its relation
of the two values (`condEQ_compareFlags` and the five beside it). -/
theorem jumpAfterCompareFollowsTheRelation : Obligations.JumpAfterCompareFollowsTheRelation := by
  unfold Obligations.JumpAfterCompareFollowsTheRelation
  intro s p q i hpc
  have hcmp : s.pc.toNat + 3 ≤ 255 := by omega
  have hthree : (s.pc + 3).toNat = s.pc.toNat + 3 := by bv_omega
  have hnext : (s.pc + 3).toNat + 2 ≤ 255 := by omega
  have hfive : s.pc + 5 = s.pc + 3 + 2 := by bv_omega
  refine ⟨_, formRR_advance_pass hcmp, rfl, ?_⟩
  rw [hfive]
  exact ⟨jumpIf_pass (condEQ_compareFlags _ _) hnext, jumpIf_pass (condNE_compareFlags _ _) hnext,
    jumpIf_pass (condGT_compareFlags _ _) hnext, jumpIf_pass (condLT_compareFlags _ _) hnext,
    jumpIf_pass (condLE_compareFlags _ _) hnext, jumpIf_pass (condGE_compareFlags _ _) hnext⟩

/-- Settles O24: the form completes (`formR_advance_pass`), and its effect is one event. -/
theorem printResults : Obligations.PrintResults := by
  unfold Obligations.PrintResults
  intro s i hpc
  exact ⟨formR_advance_pass hpc, formR_advance_pass hpc⟩

/-- Settles O26: the divisor is looked at before the successor address (`aluDivRR_zero`). -/
theorem zeroDivisorFaults : Obligations.ZeroDivisorFaults := by
  unfold Obligations.ZeroDivisorFaults
  intro s i j hpc hd
  exact ⟨aluDivRR_zero hpc hd, aluDivRR_zero hpc hd⟩

/-- Settles O46: the byte pushed is the register's, for SP is another register; it is on top of the stack when the POP
reads it, and the increment of SP undoes the decrement (`State.popReg_push_reg`). -/
theorem pushThenPopRestores : Obligations.PushThenPopRestores := by
  unfold Obligations.PushThenPopRestores
  intro s i hi hpc
  have hpush : s.pc.toNat + 2 ≤ 255 := by omega
  have htwo : (s.pc + 2).toNat = s.pc.toNat + 2 := by bv_omega
  have hpop : (s.pc + 2).toNat + 2 ≤ 255 := by omega
  have hfour : s.pc + 4 = s.pc + 2 + 2 := by bv_omega
  have hbyte : s.decSp.reg i = s.reg i := State.setReg_reg_other s _ hi
  refine ⟨_, _, formR_advance_pass hpush, formR_advance_pass hpop, fun r => ?_, hfour.symm, rfl, rfl, fun a ha => ?_⟩
  · rw [hbyte]
    exact State.popReg_push_reg s hi r
  · exact (State.push_memRead s _ a).trans (if_neg ha)

/-- Settles O48: ST completes (`formRR_advance_pass`), and the next fetch reads the cell just written. -/
theorem storedByteIsFetchedNext : Obligations.StoredByteIsFetchedNext := by
  unfold Obligations.StoredByteIsFetchedNext
  intro s i j hpc haddr
  refine ⟨_, formRR_advance_pass hpc, rfl, congrArg some ?_⟩
  rw [State.setPc_memRead, State.setPc_pc, haddr, State.memRead_memWrite_same]

end Sys2Proof
end

section
namespace Sys2Proof.Machine

/-! ### Canonical memories (20_memory.md R30) -/

theorem Memory.read_below {lo a : Nat} {m : Memory} (h : Memory.wfFrom lo m = true) (ha : a < lo) :
    Memory.read m a = 0#8 := by
  induction m generalizing lo with
  | nil => rfl
  | cons c cells ih =>
    obtain ⟨k, v⟩ := c
    simp only [Memory.wfFrom, Bool.and_eq_true, decide_eq_true_eq] at h
    obtain ⟨⟨⟨hlo, -⟩, -⟩, hcells⟩ := h
    have hk : k ≠ a := by omega
    rw [Memory.read, if_neg hk]
    exact ih hcells (by omega)

/-- The first cell of a canonical memory is the lowest address that does not read as zero. -/
theorem Memory.wfFrom_cons {lo k : Nat} {v : Byte} {cells : Memory} (h : Memory.wfFrom lo ((k, v) :: cells) = true) :
    k < 256 ∧ Memory.read ((k, v) :: cells) k = v ∧ v ≠ 0#8 ∧ Memory.wfFrom (k + 1) cells = true ∧
      ∀ a < k, Memory.read ((k, v) :: cells) a = 0#8 := by
  simp only [Memory.wfFrom, Bool.and_eq_true, decide_eq_true_eq] at h
  obtain ⟨⟨⟨-, hk⟩, hv⟩, hcells⟩ := h
  refine ⟨hk, if_pos rfl, hv, hcells, fun a ha => ?_⟩
  rw [Memory.read, if_neg (by omega)]
  exact Memory.read_below hcells (by omega)

theorem Memory.eq_of_read_eq {lo lo' : Nat} {m m' : Memory} (h : Memory.wfFrom lo m = true)
    (h' : Memory.wfFrom lo' m' = true) (hread : ∀ a < 256, Memory.read m a = Memory.read m' a) : m = m' := by
  induction m generalizing lo lo' m' with
  | nil =>
    cases m' with
    | nil => rfl
    | cons c' cells' =>
      obtain ⟨hk', hread', hv', -⟩ := Memory.wfFrom_cons h'
      exact absurd (hread'.symm.trans (hread _ hk').symm) hv'
  | cons c cells ih =>
    obtain ⟨k, v⟩ := c
    obtain ⟨hk, hreadk, hv, hcells, hbelow⟩ := Memory.wfFrom_cons h
    cases m' with
    | nil => exact absurd (hreadk.symm.trans (hread k hk)) hv
    | cons c' cells' =>
      obtain ⟨k', v'⟩ := c'
      obtain ⟨hk', hreadk', hv', hcells', hbelow'⟩ := Memory.wfFrom_cons h'
      have hkk : k = k' := by
        rcases Nat.lt_trichotomy k k' with hlt | heq | hgt
        · exact absurd (hreadk.symm.trans ((hread k hk).trans (hbelow' k hlt))) hv
        · exact heq
        · exact absurd (hreadk'.symm.trans ((hread k' hk').symm.trans (hbelow k' hgt))) hv'
      subst hkk
      have hvv : v = v' := hreadk.symm.trans ((hread k hk).trans hreadk')
      have hrest : cells = cells' := by
        refine ih hcells hcells' fun a ha => ?_
        by_cases hak : k = a
        · rw [Memory.read_below hcells (by omega), Memory.read_below hcells' (by omega)]
        · have hcell := hread a ha
          rwa [Memory.read, Memory.read, if_neg hak, if_neg hak] at hcell
      rw [hvv, hrest]

/-- An image stored from address 0 is read back below its length, and memory is as before above it. -/
theorem Memory.read_image (m : Memory) (image : List Byte) (a : Byte) :
    Memory.read (Memory.writeBytes m 0 image) a.toNat =
      if h : a.toNat < image.length then image[a.toNat] else Memory.read m a.toNat := by
  by_cases h : a.toNat < image.length
  · have hstored := Memory.read_writeBytes (m := m) (a := 0) image h (by rw [Nat.zero_add]; exact a.isLt)
    rw [Nat.zero_add] at hstored
    rw [dif_pos h, hstored]
  · rw [dif_neg h]
    exact Memory.read_writeBytes_above image (by omega)

/-! ### The tick (60_exceptions.md R186) -/

theorem State.tick_iff {s : State} {now : Nat} : s.tick now = true ↔ s.tLast + cfg.timerPeriod ≤ now := by
  have hperiod : cfg.timerPeriod = 1000 := rfl
  rw [State.tick, decide_eq_true_eq, hperiod]
  omega

/-- A tick sets the timer's bit of IS; the other line has another bit. -/
theorem State.poll_timer_bit (s : State) :
    s.poll.reg IS &&& 0x01#8 = if s.tick s.nextInput.now then 0x01#8 else s.reg IS &&& 0x01#8 := by
  have hinput : (if s.nextInput.key.isSome then 0x02#8 else 0#8) &&& 0x01#8 = 0#8 := by split <;> rfl
  rw [State.poll_reg, if_pos rfl, bitMask_inputLine, bitMask_timerLine, BitVec.and_or_distrib_right,
    BitVec.and_or_distrib_right, hinput, BitVec.or_zero]
  cases s.tick s.nextInput.now with
  | false => simp
  | true =>
    have habsorb : ∀ x : Byte, (x &&& 0x01#8) ||| (0x01#8 &&& 0x01#8) = 0x01#8 := by decide
    exact habsorb _

/-- What the timer does with a listed sample, whatever its input byte. -/
theorem State.poll_listed (s : State) (key : Option Byte) (now : Nat) :
    (s.setInputs [{ key := key, now := now }]).poll.tLast =
      (if s.tLast + cfg.timerPeriod ≤ now then now else s.tLast) ∧
    (s.setInputs [{ key := key, now := now }]).poll.reg 6 &&& 0x01#8 =
      (if s.tLast + cfg.timerPeriod ≤ now then 0x01#8 else s.reg 6 &&& 0x01#8) := by
  have hlast := State.poll_tLast (s.setInputs [{ key := key, now := now }])
  have hbit := State.poll_timer_bit (s.setInputs [{ key := key, now := now }])
  simp only [State.tick_iff] at hlast hbit
  exact ⟨hlast, hbit⟩

/-! ### The line serviced (60_exceptions.md R171, R177) -/

theorem State.serviceable_eq_some {s : State} {l : Nat} :
    s.serviceable = some l ↔ s.ie = true ∧ lowestLine s.pending = some l := by
  cases hie : s.ie with
  | false => simp [State.serviceable, hie]
  | true => simp [State.serviceable_of_ie hie]

theorem State.pending_bit (s : State) (k : Nat) :
    s.pending.getLsbD k = ((s.reg 5).getLsbD k && (s.reg 6).getLsbD k) := BitVec.getLsbD_and

/-! ### The frame of an interrupt (60_exceptions.md R179, R180) -/

/-- Every cell after an interrupt entry: below the old SP the frame, with R6 as the entry leaves it. -/
theorem State.interruptEntry_memRead (s : State) (l : Nat) (a : Byte) :
    (s.interruptEntry l).memRead a =
      if a = s.reg 7 - 9 then (s.interruptEntry l).reg 6 else if a = s.reg 7 - 8 then s.reg 5
      else if a = s.reg 7 - 7 then s.reg 4 else if a = s.reg 7 - 6 then s.reg 3 else if a = s.reg 7 - 5 then s.reg 2
      else if a = s.reg 7 - 4 then s.reg 1 else if a = s.reg 7 - 3 then s.reg 0 else if a = s.reg 7 - 2 then s.fl
      else if a = s.reg 7 - 1 then s.pc else s.memRead a := by
  have hregs : ∀ k : RegIndex, k ≠ 6 → ((s.setIe false).clearLine l).reg k = s.reg k := fun k hk =>
    (State.clearLine_reg _ l k).trans (if_neg hk)
  have hIS : ((s.setIe false).clearLine l).reg 6 = (s.interruptEntry l).reg 6 :=
    (State.clearLine_reg _ l IS).trans (State.interruptEntry_reg s l IS).symm
  have hframe := State.pushFrame_memRead ((s.setIe false).clearLine l) a
  rw [show SP = 7 from rfl, hIS, hregs 7 (by decide), hregs 5 (by decide), hregs 4 (by decide), hregs 3 (by decide),
    hregs 2 (by decide), hregs 1 (by decide), hregs 0 (by decide)] at hframe
  exact hframe

theorem State.interruptEntry_reg_other (s : State) (l : Nat) {r : RegIndex} (h6 : r ≠ 6) (h7 : r ≠ 7) :
    (s.interruptEntry l).reg r = s.reg r :=
  (State.interruptEntry_reg s l r).trans ((if_neg h7).trans (if_neg h6))

/-- The registers saved are those that the entry leaves: R6 with the serviced bit cleared, R0 to R5 as they were. -/
theorem State.interruptEntry_saved_reg (s : State) (l : Nat) {r : RegIndex} (hr : r ≠ 7) :
    (s.interruptEntry l).memRead (s.reg 7 - BitVec.ofNat 8 (3 + r.val)) = (s.interruptEntry l).reg r := by
  by_cases h6 : r = 6
  · subst h6
    exact (State.interruptEntry_memRead s l _).trans (if_pos rfl)
  · rw [State.interruptEntry_reg_other s l h6 hr, State.interruptEntry_memRead]
    fin_cases r
    iterate 6 · simp [sub_right_inj]
    · exact absurd rfl h6
    · exact absurd rfl hr

theorem State.interruptEntry_saved_pc (s : State) (l : Nat) : (s.interruptEntry l).memRead (s.reg 7 - 1) = s.pc := by
  rw [State.interruptEntry_memRead]
  simp [sub_right_inj]

theorem State.interruptEntry_saved_fl (s : State) (l : Nat) : (s.interruptEntry l).memRead (s.reg 7 - 2) = s.fl := by
  rw [State.interruptEntry_memRead]
  simp [sub_right_inj]

theorem State.interruptEntry_memRead_other (s : State) (l : Nat) {a : Byte}
    (ha : ∀ k : Nat, 1 ≤ k → k ≤ 9 → a ≠ s.reg 7 - BitVec.ofNat 8 k) :
    (s.interruptEntry l).memRead a = s.memRead a := by
  rw [State.interruptEntry_memRead]
  split_ifs with h9 h8 h7 h6 h5 h4 h3 h2 h1
  exacts [(ha 9 (by decide) (by decide) h9).elim, (ha 8 (by decide) (by decide) h8).elim,
    (ha 7 (by decide) (by decide) h7).elim, (ha 6 (by decide) (by decide) h6).elim,
    (ha 5 (by decide) (by decide) h5).elim, (ha 4 (by decide) (by decide) h4).elim,
    (ha 3 (by decide) (by decide) h3).elim, (ha 2 (by decide) (by decide) h2).elim,
    (ha 1 (by decide) (by decide) h1).elim, rfl]

theorem State.interruptReturn_reg_popped (s : State) {r : RegIndex} (hr : r ≠ 7) :
    s.interruptReturn.reg r = s.memRead (s.reg 7 + BitVec.ofNat 8 (6 - r.val)) :=
  (State.interruptReturn_reg s r).trans (if_neg hr)

theorem State.interruptReturn_sp (s : State) : s.interruptReturn.reg 7 = s.reg 7 + 9 := State.interruptReturn_reg s SP

end Sys2Proof.Machine
end

section
namespace Sys2Proof
open Sys2Proof.Machine

/-- Settles O5: the reset line puts in the fields of the reset state, all but the samples and the time. -/
theorem resetValues : Obligations.ResetValues := by
  unfold Obligations.ResetValues
  intro s now
  have hregs : ∀ r : RegIndex, State.reset.reg r = if r = 7 then 0xF4#8 else 0x00#8 := by decide
  exact ⟨hregs, rfl, rfl, rfl, fun _ => rfl, rfl, rfl, rfl, rfl, rfl, rfl⟩

/-- Settles O7: the loader writes the image's bytes from address 0 (`Memory.read_image`) and no other field, or refuses. -/
theorem loaderFillsMemoryFromZero : Obligations.LoaderFillsMemoryFromZero := by
  unfold Obligations.LoaderFillsMemoryFromZero
  intro s image
  constructor
  · intro hfits
    exact ⟨_, if_pos hfits, fun a => Memory.read_image s.mem image a, fun _ => rfl, rfl, rfl, rfl, rfl, rfl, rfl, rfl, rfl⟩
  · intro hlong
    exact if_neg (Nat.not_le.mpr hlong)

/-- Settles O9: the lowest cells of two canonical memories that read alike are equal, and so on up
(`Memory.eq_of_read_eq`). -/
theorem canonicalMemory : Obligations.CanonicalMemory := by
  unfold Obligations.CanonicalMemory
  constructor
  · intro m m' h h' hread
    refine Memory.eq_of_read_eq h h' fun a ha => ?_
    have hcell := hread (BitVec.ofNat 8 a)
    rwa [BitVec.toNat_ofNat, Nat.mod_eq_of_lt ha] at hcell
  · intro s addr v h
    exact State.memWrite_wf addr v h

/-- Settles O25: the nine pops read the cells from SP upward (`State.interruptReturn_reg`) and touch nothing else. -/
theorem interruptReturnResult : Obligations.InterruptReturnResult := by
  unfold Obligations.InterruptReturnResult
  intro s
  have hreg := fun {r : RegIndex} (hr : r ≠ 7) => State.interruptReturn_reg_popped s hr
  have htop : s.interruptReturn.reg 6 = s.memRead (s.reg 7) :=
    (hreg (by decide)).trans (congrArg s.memRead (BitVec.add_zero _))
  exact ⟨_, rfl, htop, hreg (by decide), hreg (by decide), hreg (by decide), hreg (by decide), hreg (by decide),
    hreg (by decide), State.interruptReturn_fl s, State.interruptReturn_pc s, State.interruptReturn_sp s, rfl,
    State.interruptReturn_mem s, State.interruptReturn_run s, State.interruptReturn_tLast s, State.interruptReturn_out s,
    State.interruptReturn_inputs s, State.interruptReturn_samples s⟩

/-- Settles O38: the tick is `State.tick_iff`; one period after the last tick a sample ticks, at the time of the last tick
it does not. -/
theorem tickIsFree : Obligations.TickIsFree := by
  unfold Obligations.TickIsFree
  intro s
  refine ⟨State.poll_inputs s, State.poll_samples s, ?_, fun b => ?_⟩
  · simp only [State.poll_tLast, State.tick_iff]
  · cases b with
    | true =>
      refine ⟨s.tLast + cfg.timerPeriod, Nat.le_add_right _ _, fun key => ?_⟩
      obtain ⟨hlast, hbit⟩ := State.poll_listed s key (s.tLast + cfg.timerPeriod)
      rw [if_pos le_rfl] at hlast hbit
      exact ⟨hlast, fun _ => hbit, fun h => by cases h⟩
    | false =>
      have hearly : ¬ s.tLast + cfg.timerPeriod ≤ s.tLast := Nat.not_le.mpr (Nat.lt_add_of_pos_right (by decide))
      refine ⟨s.tLast, le_rfl, fun key => ?_⟩
      obtain ⟨hlast, hbit⟩ := State.poll_listed s key s.tLast
      rw [if_neg hearly] at hlast hbit
      exact ⟨hlast, (fun h => by cases h), fun _ => hbit⟩

/-- Settles O40: the lowest bit of `IM & IS`, where `ie` is set (`State.serviceable_eq_some`, `lowestLine_eq_some`). -/
theorem lowestPendingLineIsServiced : Obligations.LowestPendingLineIsServiced := by
  unfold Obligations.LowestPendingLineIsServiced
  intro s
  refine ⟨fun l => ?_, State.serviceable_eq_none⟩
  rw [State.serviceable_eq_some, lowestLine_eq_some]
  simp only [State.pending_bit, Bool.and_eq_true, ← Bool.not_eq_true]
  tauto

/-- Settles O42: each cell of the frame (`State.interruptEntry_saved_reg`, `_saved_pc`, `_saved_fl`), every other cell and
register, and the projections of `State.interruptEntry`. -/
theorem interruptEntryEffects : Obligations.InterruptEntryEffects := by
  unfold Obligations.InterruptEntryEffects
  intro s l _
  have hreg := fun {r : RegIndex} (h6 : r ≠ 6) (h7 : r ≠ 7) => State.interruptEntry_reg_other s l h6 h7
  have hsaved := fun {r : RegIndex} (h6 : r ≠ 6) (h7 : r ≠ 7) =>
    (State.interruptEntry_saved_reg s l h7).trans (hreg h6 h7)
  exact ⟨State.interruptEntry_reg s l SP, fun k hk => State.interruptEntry_line s l hk, fun r => hreg,
    State.interruptEntry_saved_pc s l, State.interruptEntry_saved_fl s l,
    hsaved (r := 0) (by decide) (by decide), hsaved (r := 1) (by decide) (by decide),
    hsaved (r := 2) (by decide) (by decide), hsaved (r := 3) (by decide) (by decide),
    hsaved (r := 4) (by decide) (by decide), hsaved (r := 5) (by decide) (by decide),
    State.interruptEntry_saved_reg s l (r := 6) (by decide), fun a => State.interruptEntry_memRead_other s l,
    rfl, rfl, rfl, rfl, rfl, rfl, rfl, rfl⟩

/-- Settles O43: the pops read the nine cells in the reverse order of the pushes, so each gets back what the entry saved. -/
theorem entryThenReturnRestores : Obligations.EntryThenReturnRestores := by
  unfold Obligations.EntryThenReturnRestores
  intro s t l _ hsp hframe
  have hsp : t.reg 7 = s.reg 7 - 9 := hsp.trans (State.interruptEntry_reg s l SP)
  have hregs : ∀ r : RegIndex, r ≠ 7 → t.interruptReturn.reg r = (s.interruptEntry l).reg r := by
    intro r hr
    have hlt : r.val < 7 := Nat.lt_of_le_of_ne (Nat.le_of_lt_succ r.isLt) fun h => hr (Fin.ext h)
    have hcell : t.reg 7 + BitVec.ofNat 8 (6 - r.val) = s.reg 7 - BitVec.ofNat 8 (3 + r.val) := by
      rw [hsp]
      bv_omega
    rw [State.interruptReturn_reg_popped t hr, hcell, hframe _ (by omega) (by omega),
      State.interruptEntry_saved_reg s l hr]
  refine ⟨_, rfl, ?_, ?_, fun r h6 => ?_, fun k hk => ?_, rfl, State.interruptReturn_mem t⟩
  · have hcell : t.reg 7 + 8 = s.reg 7 - 1 := by rw [hsp]; bv_omega
    exact (State.interruptReturn_pc t).trans
      ((congrArg t.memRead hcell).trans ((hframe 1 (by decide) (by decide)).trans (State.interruptEntry_saved_pc s l)))
  · have hcell : t.reg 7 + 7 = s.reg 7 - 2 := by rw [hsp]; bv_omega
    exact (State.interruptReturn_fl t).trans
      ((congrArg t.memRead hcell).trans ((hframe 2 (by decide) (by decide)).trans (State.interruptEntry_saved_fl s l)))
  · by_cases h7 : r = 7
    · rw [h7, State.interruptReturn_sp, hsp, BitVec.sub_add_cancel]
    · rw [hregs r h7, State.interruptEntry_reg_other s l h6 h7]
  · rw [hregs 6 (by decide)]
    exact State.interruptEntry_line s l hk

/-- Settles O45: after IRET every register, FL and the pc are bytes of memory at addresses counted from SP, SP is nine
higher, and `ie` is set. -/
theorem returnForgetsTheHandlersRegisters : Obligations.ReturnForgetsTheHandlersRegisters := by
  unfold Obligations.ReturnForgetsTheHandlersRegisters
  intro s t hsp hmem hrun htLast hout hinputs hsamples
  have hread : ∀ a : Byte, s.memRead a = t.memRead a := fun a => congrArg (Memory.read · a.toNat) hmem
  have hsame : s.interruptReturn = t.interruptReturn := by
    apply State.ext_reg
    case hr => intro k; rw [State.interruptReturn_reg, State.interruptReturn_reg, show SP = 7 from rfl, hsp, hread]
    case hpc => rw [State.interruptReturn_pc, State.interruptReturn_pc, show SP = 7 from rfl, hsp, hread]
    case hfl => rw [State.interruptReturn_fl, State.interruptReturn_fl, show SP = 7 from rfl, hsp, hread]
    case hie => rw [State.interruptReturn_ie, State.interruptReturn_ie]
    case hm => rw [State.interruptReturn_mem, State.interruptReturn_mem, hmem]
    case hrun => rw [State.interruptReturn_run, State.interruptReturn_run, hrun]
    case ht => rw [State.interruptReturn_tLast, State.interruptReturn_tLast, htLast]
    case ho => rw [State.interruptReturn_out, State.interruptReturn_out, hout]
    case hin => rw [State.interruptReturn_inputs, State.interruptReturn_inputs, hinputs]
    case hsa => rw [State.interruptReturn_samples, State.interruptReturn_samples, hsamples]
  exact ⟨s.interruptReturn, rfl, congrArg Host.Outcome.next hsame.symm⟩

end Sys2Proof
end

section
namespace Sys2Proof.Machine

/-! ### Fields that no instruction reads (10_state.md R20, R24) -/

/-- A change of state that no instruction notices: registers, pc, FL, `ie`, memory and run status are as before, and it
makes no difference whether it comes before or after a write of any of them or after an event. -/
structure Unnoticed (f : State → State) : Prop where
  reg : ∀ s k, (f s).reg k = s.reg k
  pc : ∀ s, (f s).pc = s.pc
  fl : ∀ s, (f s).fl = s.fl
  ie : ∀ s, (f s).ie = s.ie
  mem : ∀ s, (f s).mem = s.mem
  run : ∀ s, (f s).run = s.run
  setReg : ∀ s k v, (f s).setReg k v = f (s.setReg k v)
  setPc : ∀ s v, (f s).setPc v = f (s.setPc v)
  setFl : ∀ s v, (f s).setFl v = f (s.setFl v)
  setIe : ∀ s v, (f s).setIe v = f (s.setIe v)
  setRun : ∀ s r, (f s).setRun r = f (s.setRun r)
  memWrite : ∀ s a v, (f s).memWrite a v = f (s.memWrite a v)
  emit : ∀ s e, (f s).emit e = f (s.emit e)

/-- The change made to the next state of a result. -/
def mapNext (f : State → State) : Result → Result
  | .next t => .next (f t)
  | .fault r => .fault r
  | .refused r => .refused r

/-- Earlier events put before the output. -/
def State.emitBefore (earlier : List OutEvent) (s : State) : State := { s with out := earlier ++ s.out }

theorem emitBefore_unnoticed (earlier : List OutEvent) : Unnoticed (State.emitBefore earlier) where
  reg _ _ := rfl
  pc _ := rfl
  fl _ := rfl
  ie _ := rfl
  mem _ := rfl
  run _ := rfl
  setReg _ _ _ := rfl
  setPc _ _ := rfl
  setFl _ _ := rfl
  setIe _ _ := rfl
  setRun _ _ := rfl
  memWrite _ _ _ := rfl
  emit s e := by simp [State.emitBefore, State.emit]

theorem setTLast_unnoticed (time : Nat) : Unnoticed (State.setTLast · time) where
  reg _ _ := rfl
  pc _ := rfl
  fl _ := rfl
  ie _ := rfl
  mem _ := rfl
  run _ := rfl
  setReg _ _ _ := rfl
  setPc _ _ := rfl
  setFl _ _ := rfl
  setIe _ _ := rfl
  setRun _ _ := rfl
  memWrite _ _ _ := rfl
  emit _ _ := rfl

namespace Unnoticed

variable {f : State → State} (hf : Unnoticed f) (s : State)
include hf

/-! #### The operations -/

theorem memRead (a : Byte) : (f s).memRead a = s.memRead a := congrArg (Memory.read · a.toNat) (hf.mem s)

theorem top : (f s).top = s.top := by rw [State.top, hf.reg, hf.memRead, State.top]

theorem decSp : (f s).decSp = f s.decSp := by rw [State.decSp, hf.reg, hf.setReg, State.decSp]

theorem incSp : (f s).incSp = f s.incSp := by rw [State.incSp, hf.reg, hf.setReg, State.incSp]

theorem push (v : Byte) : (f s).push v = f (s.push v) := by
  rw [State.push, hf.decSp, hf.reg, hf.memWrite, State.push]

theorem popReg (i : RegIndex) : (f s).popReg i = f (s.popReg i) := by
  rw [State.popReg, hf.top, hf.setReg, hf.incSp, State.popReg]

theorem popFl : (f s).popFl = f s.popFl := by rw [State.popFl, hf.top, hf.setFl, hf.incSp, State.popFl]

theorem popPc : (f s).popPc = f s.popPc := by rw [State.popPc, hf.top, hf.setPc, hf.incSp, State.popPc]

theorem interruptReturn : (f s).interruptReturn = f s.interruptReturn := by
  simp only [State.interruptReturn, hf.popReg, hf.popFl, hf.popPc, hf.setIe]

theorem pushFrame : (f s).pushFrame = f s.pushFrame := by
  simp only [State.pushFrame, hf.pc, hf.fl, hf.reg, hf.push]

theorem interruptEntry (l : Nat) : (f s).interruptEntry l = f (s.interruptEntry l) := by
  simp only [State.interruptEntry, State.clearLine, State.jumpVector, hf.setIe, hf.reg, hf.setReg, hf.pushFrame,
    hf.memRead, hf.setPc]

theorem fault (c : Fault) : (f s).fault c = f (s.fault c) := by
  rw [State.fault, hf.pc, hf.memRead, hf.setRun, State.fault]

theorem serviceable : (f s).serviceable = s.serviceable := by
  simp only [State.serviceable, State.pending, hf.ie, hf.reg]

theorem fetchBytes : (f s).fetchBytes = s.fetchBytes := by
  simp only [State.fetchBytes, hf.pc, hf.memRead]

theorem raiseLine (l : Nat) : (f s).raiseLine l = f (s.raiseLine l) := by
  rw [State.raiseLine, hf.reg, hf.setReg, State.raiseLine]

theorem pollKey (key : Option Byte) : (f s).pollKey key = f (s.pollKey key) := by
  cases key with
  | none => rfl
  | some b => rw [State.pollKey, hf.memWrite, hf.raiseLine, State.pollKey]

/-! #### The checks and forms -/

variable {s}

theorem checkOperands {n : Nat} {k k' : Result} (hk : k' = mapNext f k) :
    checkOperands n (f s) k' = mapNext f (checkOperands n s k) := by
  unfold Machine.checkOperands raise
  rw [hf.pc, hf.fault, hk]
  split <;> rfl

theorem checkReg {o : Byte} {k k' : RegIndex → Result} (hk : ∀ i, k' i = mapNext f (k i)) :
    checkReg o (f s) k' = mapNext f (checkReg o s k) := by
  unfold Machine.checkReg raise
  rw [hf.fault]
  cases regIndex? o with
  | none => rfl
  | some i => exact hk i

theorem checkDivisor {d : Byte} {k k' : Result} (hk : k' = mapNext f k) :
    checkDivisor d (f s) k' = mapNext f (checkDivisor d s k) := by
  unfold Machine.checkDivisor raise
  rw [hf.fault, hk]
  split <;> rfl

theorem checkNext {n : Nat} {k k' : Byte → Result} (hk : ∀ p, k' p = mapNext f (k p)) :
    checkNext n (f s) k' = mapNext f (checkNext n s k) := by
  unfold Machine.checkNext raise
  rw [hf.pc, hf.fault, hk]
  split <;> rfl

theorem advance {n : Nat} {effect : State → State} (he : effect (f s) = f (effect s)) :
    advance n (f s) effect = mapNext f (advance n s effect) :=
  hf.checkNext fun p => by rw [he, hf.setPc]; rfl

theorem formR {a : Byte} {k k' : RegIndex → Result} (hk : ∀ i, k' i = mapNext f (k i)) :
    formR a (f s) k' = mapNext f (formR a s k) :=
  hf.checkOperands (hf.checkReg hk)

theorem formRI {a : Byte} {k k' : RegIndex → Result} (hk : ∀ i, k' i = mapNext f (k i)) :
    formRI a (f s) k' = mapNext f (formRI a s k) :=
  hf.checkOperands (hf.checkReg hk)

theorem formRR {a b : Byte} {k k' : RegIndex → RegIndex → Result} (hk : ∀ i j, k' i j = mapNext f (k i j)) :
    formRR a b (f s) k' = mapNext f (formRR a b s k) :=
  hf.checkOperands (hf.checkReg fun i => hf.checkReg (hk i))

theorem aluR {g : Byte → Byte} {a : Byte} : aluR g a (f s) = mapNext f (aluR g a s) :=
  hf.formR fun i => hf.advance (by rw [hf.reg, hf.setReg])

theorem aluRI {g : Byte → Byte → Byte} {a imm : Byte} : aluRI g a imm (f s) = mapNext f (aluRI g a imm s) :=
  hf.formRI fun i => hf.advance (by rw [hf.reg, hf.setReg])

theorem aluRR {g : Byte → Byte → Byte} {a b : Byte} : aluRR g a b (f s) = mapNext f (aluRR g a b s) :=
  hf.formRR fun i j => hf.advance (by rw [hf.reg, hf.reg, hf.setReg])

theorem aluDivRR {g : Byte → Byte → Byte} {a b : Byte} : aluDivRR g a b (f s) = mapNext f (aluDivRR g a b s) :=
  hf.formRR fun i j => by
    rw [hf.reg]
    exact hf.checkDivisor (hf.advance (by rw [hf.reg, hf.reg, hf.setReg]))

theorem jumpIf {cond : Byte → Bool} {a : Byte} : jumpIf cond a (f s) = mapNext f (jumpIf cond a s) :=
  hf.formR fun i => by
    rw [hf.fl, hf.reg, hf.setPc]
    split
    · rfl
    · exact hf.checkNext fun p => by rw [hf.setPc]; rfl

/-! #### Instruction and cycle -/

variable (s)

theorem exec (i : Instr) : exec i (f s) = mapNext f (exec i s) := by
  cases i with
  | hlt => exact congrArg Host.Outcome.next (hf.setRun s .halted)
  | ret => exact congrArg Host.Outcome.next (hf.popPc s)
  | iret => exact congrArg Host.Outcome.next (hf.interruptReturn s)
  | push a => exact hf.formR fun i => hf.advance (by rw [hf.decSp, hf.reg, hf.push])
  | pop a => exact hf.formR fun i => hf.advance (hf.popReg s i)
  | prn a | pra a => exact hf.formR fun i => hf.advance (by rw [hf.reg, hf.emit])
  | call a =>
    exact hf.formR fun i => hf.checkNext fun p => by rw [hf.push, hf.decSp, hf.reg, hf.setPc]; rfl
  | jmp a => exact hf.formR fun i => by rw [hf.reg, hf.setPc]; rfl
  | jeq a | jne a | jgt a | jlt a | jle a | jge a => exact hf.jumpIf
  | inc a | dec a | not a => exact hf.aluR
  | ldi a imm => exact hf.formRI fun i => hf.advance (hf.setReg s i imm)
  | addi a imm => exact hf.aluRI
  | ld a b => exact hf.formRR fun i j => hf.advance (by rw [hf.reg, hf.memRead, hf.setReg])
  | st a b => exact hf.formRR fun i j => hf.advance (by rw [hf.reg, hf.reg, hf.memWrite])
  | cmp a b => exact hf.formRR fun i j => hf.advance (by rw [hf.reg, hf.reg, hf.setFl])
  | div a b | mod a b => exact hf.aluDivRR
  | add a b | sub a b | mul a b | and a b | or a b | xor a b | shl a b | shr a b => exact hf.aluRR

theorem fetchExecute : fetchExecute (f s) = mapNext f (fetchExecute s) := by
  unfold Machine.fetchExecute raise
  rw [hf.fetchBytes, hf.fault, hf.fault]
  split
  · exact hf.exec s _
  · rfl
  · rfl

theorem checkAndExecute : checkAndExecute (f s) = mapNext f (checkAndExecute s) := by
  unfold Machine.checkAndExecute
  rw [hf.serviceable]
  split
  · rw [hf.interruptEntry]; rfl
  · exact hf.fetchExecute s

/-- What the poll does not notice either, the step does not. -/
theorem step (hpoll : (f s).poll = f s.poll) : step (f s) = mapNext f (step s) := by
  by_cases hrun : s.run = .running
  · rw [step_running hrun, step_running ((hf.run s).trans hrun), hpoll, hf.checkAndExecute]
  · have hrun' : (f s).run ≠ .running := by rwa [hf.run]
    rw [step_stopped hrun, step_stopped hrun']
    rfl

end Unnoticed

/-! ### The poll notices neither the output nor, without a tick, the time of the last one -/

theorem State.poll_emitBefore (earlier : List OutEvent) (s : State) :
    (s.emitBefore earlier).poll = s.poll.emitBefore earlier := by
  have hf := emitBefore_unnoticed earlier
  have hkey : (s.emitBefore earlier).takeSample.pollKey s.nextInput.key =
      (s.takeSample.pollKey s.nextInput.key).emitBefore earlier := hf.pollKey s.takeSample _
  rw [State.poll, show (s.emitBefore earlier).nextInput = s.nextInput from rfl, hkey, State.poll]
  unfold State.pollTimer
  rw [show ∀ t : State, (t.emitBefore earlier).tick s.nextInput.now = t.tick s.nextInput.now from fun _ => rfl]
  split
  · rw [hf.raiseLine]; rfl
  · rfl

theorem State.poll_no_tick {s : State} (h : s.tick s.nextInput.now = false) :
    s.poll = s.takeSample.pollKey s.nextInput.key := by
  have hno : (s.takeSample.pollKey s.nextInput.key).tick s.nextInput.now = false := by
    rw [State.tick_pollKey, State.takeSample_tick, h]
  rw [State.poll, State.pollTimer, hno]
  rfl

theorem State.poll_setTLast {s : State} {time : Nat} (h : s.tick s.nextInput.now = false)
    (h' : (s.setTLast time).tick s.nextInput.now = false) : (s.setTLast time).poll = s.poll.setTLast time := by
  rw [State.poll_no_tick h, State.poll_no_tick h']
  exact (setTLast_unnoticed time).pollKey s.takeSample _

end Sys2Proof.Machine
end

section
namespace Sys2Proof
open Sys2Proof.Machine

/-- Settles O57: events put before the output are noticed by no operation of a step (`Unnoticed.step`,
`emitBefore_unnoticed`). -/
theorem outputIsNeverReadBack : Obligations.OutputIsNeverReadBack := by
  unfold Obligations.OutputIsNeverReadBack
  intro s t earlier h
  have hstep := (emitBefore_unnoticed earlier).step s (State.poll_emitBefore earlier s)
  rw [h] at hstep
  exact hstep

/-- Settles O59: the time of the last tick is looked at by the tick only (`State.poll_setTLast`), and noticed by no other
operation of a step (`Unnoticed.step`, `setTLast_unnoticed`). -/
theorem lastTickIsHidden : Obligations.LastTickIsHidden := by
  unfold Obligations.LastTickIsHidden
  intro s t time hquiet hquiet' h
  have hstep := (setTLast_unnoticed time).step s (State.poll_setTLast hquiet hquiet')
  rw [h] at hstep
  exact hstep

end Sys2Proof
end

section
namespace Sys2Proof.Machine

/-! ### Placing an instruction (log 22), stage by stage -/

/-- The bytes stored at the pc, and the machine running. -/
def State.storeAtPc (s : State) (bytes : List Byte) : State :=
  { s with mem := Memory.writeBytes s.mem s.pc.toNat bytes, run := .running }

/-- No input byte of the coming cycle is stored over the bytes at the pc. -/
def State.shieldFetch (s : State) : State := if s.keyHitsFetch then s.setInputs (dropNextKey s.inputs) else s

/-- The coming cycle is no interrupt entry. -/
def State.holdInterrupts (s : State) : State := if s.poll.serviceable.isSome then s.setIe false else s

theorem State.placeInstruction_eq (s : State) (bytes : List Byte) :
    s.placeInstruction bytes = (s.storeAtPc bytes).settleSample.shieldFetch.holdInterrupts := rfl

theorem State.storeAtPc_memRead {s : State} {bytes : List Byte} {k : Nat} (hk : k < bytes.length)
    (hfit : s.pc.toNat + k < 256) : (s.storeAtPc bytes).memRead (s.pc + BitVec.ofNat 8 k) = bytes[k] := by
  have haddr : (s.pc + BitVec.ofNat 8 k).toNat = s.pc.toNat + k := by
    rw [BitVec.toNat_add, BitVec.toNat_ofNat]
    omega
  rw [State.memRead, haddr]
  exact Memory.read_writeBytes bytes hk hfit

/-- The fields that the later stages of a placement leave as they were. -/
structure SamePlace (s t : State) : Prop where
  pc : t.pc = s.pc
  mem : t.mem = s.mem
  run : t.run = s.run

theorem SamePlace.trans {s t u : State} (h : SamePlace s t) (h' : SamePlace t u) : SamePlace s u :=
  ⟨h'.pc.trans h.pc, h'.mem.trans h.mem, h'.run.trans h.run⟩

theorem State.settleSample_samePlace (s : State) : SamePlace s s.settleSample := by
  obtain ⟨i, rest, hlisted, -⟩ := s.settleSample_listed
  rw [hlisted]
  exact ⟨rfl, rfl, rfl⟩

theorem State.settleSample_inputs (s : State) : ∃ i rest, s.settleSample.inputs = i :: rest := by
  obtain ⟨i, rest, hlisted, -⟩ := s.settleSample_listed
  exact ⟨i, rest, by rw [hlisted, State.setInputs_inputs]⟩

theorem State.shieldFetch_samePlace (s : State) : SamePlace s s.shieldFetch := by
  unfold State.shieldFetch
  split <;> exact ⟨rfl, rfl, rfl⟩

theorem State.holdInterrupts_samePlace (s : State) : SamePlace s s.holdInterrupts := by
  unfold State.holdInterrupts
  split <;> exact ⟨rfl, rfl, rfl⟩

theorem State.shieldFetch_keyHitsFetch {s : State} {i : CycleInput} {rest : List CycleInput} (h : s.inputs = i :: rest) :
    s.shieldFetch.keyHitsFetch = false := by
  unfold State.shieldFetch
  split
  · rw [h, dropNextKey]; rfl
  · rename_i hclear
    exact Bool.eq_false_iff.mpr hclear

theorem State.holdInterrupts_keyHitsFetch (s : State) : s.holdInterrupts.keyHitsFetch = s.keyHitsFetch := by
  unfold State.holdInterrupts
  split <;> rfl

theorem State.holdInterrupts_serviceable (s : State) : s.holdInterrupts.poll.serviceable = none := by
  unfold State.holdInterrupts
  split
  · exact State.serviceable_eq_none.mpr (.inl (State.poll_ie _))
  · rename_i hnone
    exact Option.not_isSome_iff_eq_none.mp hnone

/-- Where the input byte does not hit the fetch, the poll leaves the three bytes at the pc. -/
theorem State.poll_memRead_of_not_keyHitsFetch {s : State} (h : s.keyHitsFetch = false) {k : Nat} (hk : k ≤ 2)
    (hfit : s.pc.toNat + 2 ≤ 255) :
    s.poll.memRead (s.pc + BitVec.ofNat 8 k) = s.memRead (s.pc + BitVec.ofNat 8 k) := by
  have haddr : (s.pc + BitVec.ofNat 8 k).toNat = s.pc.toNat + k := by
    rw [BitVec.toNat_add, BitVec.toNat_ofNat]
    omega
  rw [State.poll_memRead_eq_getD]
  split
  · rename_i hkey
    have hkeyAddr : cfg.keyAddr.toNat = s.pc.toNat + k := by rw [← hkey, haddr]
    have hnone : s.nextInput.key = none := by
      rw [State.keyHitsFetch, hkeyAddr, decide_eq_true (by omega), decide_eq_true (by omega), Bool.and_true,
        Bool.and_true] at h
      exact Option.not_isSome_iff_eq_none.mp (Bool.eq_false_iff.mp h)
    rw [hnone, Option.getD_none]
  · rfl

theorem State.placeInstruction_samePlace (s : State) (bytes : List Byte) :
    SamePlace (s.storeAtPc bytes) (s.placeInstruction bytes) :=
  ((State.settleSample_samePlace _).trans (State.shieldFetch_samePlace _)).trans (State.holdInterrupts_samePlace _)

theorem State.placeInstruction_pc (s : State) (bytes : List Byte) : (s.placeInstruction bytes).pc = s.pc :=
  (s.placeInstruction_samePlace bytes).pc

theorem State.placeInstruction_run (s : State) (bytes : List Byte) : (s.placeInstruction bytes).run = .running :=
  (s.placeInstruction_samePlace bytes).run

theorem State.placeInstruction_keyHitsFetch (s : State) (bytes : List Byte) :
    (s.placeInstruction bytes).keyHitsFetch = false := by
  obtain ⟨i, rest, hlisted⟩ := (s.storeAtPc bytes).settleSample_inputs
  exact (State.holdInterrupts_keyHitsFetch _).trans (State.shieldFetch_keyHitsFetch hlisted)

/-- A placed instruction stands at the pc when the coming cycle has polled. -/
theorem State.placeInstruction_memRead {s : State} {bytes : List Byte} (hlen : bytes.length ≤ 3)
    (hfit : s.pc.toNat + 2 ≤ 255) {k : Nat} (hk : k < bytes.length) :
    (s.placeInstruction bytes).poll.memRead (s.pc + BitVec.ofNat 8 k) = bytes[k] := by
  have hpc := s.placeInstruction_pc bytes
  have hpoll := State.poll_memRead_of_not_keyHitsFetch (s.placeInstruction_keyHitsFetch bytes) (k := k) (by omega)
    (by rw [hpc]; exact hfit)
  rw [hpc] at hpoll
  have hmem := congrArg (Memory.read · (s.pc + BitVec.ofNat 8 k).toNat) (s.placeInstruction_samePlace bytes).mem
  exact hpoll.trans (hmem.trans (State.storeAtPc_memRead hk (by omega)))

theorem State.placeInstruction_serviceable (s : State) (bytes : List Byte) :
    (s.placeInstruction bytes).poll.serviceable = none := State.holdInterrupts_serviceable _

end Sys2Proof.Machine

namespace Sys2Proof

theorem decodeTableWord_eq_some {nbits w : Nat} {i : Instr} (h : decodeTableWord nbits w = some i) :
    ∃ rest, tableWordBytes nbits w = encode i ++ rest := by
  unfold decodeTableWord at h
  split at h
  · rename_i i' rest hdecode
    obtain rfl := Option.some.inj h
    exact ⟨rest, decode_eq_ok hdecode⟩
  · cases h

end Sys2Proof
end

section
namespace Sys2Proof
open Sys2Proof.Machine

/-- Settles O34: the word's bytes begin with those of the instruction (`decodeTableWord_eq_some`); placed, they stand at
the pc after the poll, which is no interrupt entry, and a step runs the instruction that stands there (O33). -/
theorem placedWordRunsNext : Obligations.PlacedWordRunsNext := by
  unfold Obligations.PlacedWordRunsNext
  intro s nbits w i hfit hword
  obtain ⟨rest, hbytes⟩ := decodeTableWord_eq_some hword
  have hthree : (tableWordBytes nbits w).length = 3 := rfl
  have hlen : (encode i).length ≤ 3 := by
    rw [← hthree, hbytes, List.length_append]
    exact Nat.le_add_right _ _
  refine stepRunsTheEncodedInstruction _ i (State.placeInstruction_run s _) (State.placeInstruction_serviceable s _) ?_ ?_
  · rw [State.withFetchWord, State.placeInstruction_pc]
    omega
  · intro k hk
    rw [State.withFetchWord, State.placeInstruction_pc,
      State.placeInstruction_memRead hthree.le hfit (lt_of_lt_of_le hk (by simp [hbytes]))]
    simp only [hbytes, List.getElem_append_left hk]

end Sys2Proof
end
